-- ==== Sys2Proof/Word.lean ====
section
/-! DEFINITION. The bit-vector types of the core: the widths of 00_scope.md R7 and of the operand fields of
30_encoding.md R56. Nothing here computes. -/

namespace Sys2Proof

/-- A byte: a general register, a timer, a memory cell, a framebuffer cell (R7: 8 bits). -/
abbrev Byte := BitVec 8

/-- A 16-bit word: `pc`, `I`, a return-stack entry, an instruction word (R7). -/
abbrev Word := BitVec 16

/-- A 4-bit field of an instruction word: `op` and `n` (R56). -/
abbrev Nibble := BitVec 4

/-- The index of one of the 16 general registers: the `x` and `y` fields (R16, R56). -/
abbrev RegIdx := BitVec 4

/-- The index of one of the 16 keys (R7: key 0..15). -/
abbrev Key := BitVec 4

/-- The 12-bit address field `nnn` (R56). -/
abbrev Addr12 := BitVec 12

end Sys2Proof
end

