-- ==== Sys2Proof/Syntax.lean ====
section
/-! DEFINITION. The instructions of the core: one constructor per row of the opcode map, 30_encoding.md R62, in the
map's order, each with the operand fields its pattern names. -/

namespace Sys2Proof

/-- The 35 operations of R62 with their operands (R57). No other operation exists (R2, R65).

`sys` carries the whole word, as its top nibble `op` and its low twelve bits `nnn`: SYS is also the decode of every
unrecognised word (R63), it prints with the full 12-bit low field even when `op` is not 0, and a model whose decode and
encode round-trip must keep the raw word beside it (R69). `shr` and `shl` carry `y`, which is decoded but not used
(R61). -/
inductive Instr where
  | sys (op : Nibble) (nnn : Addr12)
  | cls
  | ret
  | jp (nnn : Addr12)
  | call (nnn : Addr12)
  | se (x : RegIdx) (kk : Byte)
  | sne (x : RegIdx) (kk : Byte)
  | seReg (x y : RegIdx)
  | ld (x : RegIdx) (kk : Byte)
  | add (x : RegIdx) (kk : Byte)
  | ldReg (x y : RegIdx)
  | or (x y : RegIdx)
  | and (x y : RegIdx)
  | xor (x y : RegIdx)
  | addReg (x y : RegIdx)
  | subReg (x y : RegIdx)
  | shr (x y : RegIdx)
  | subn (x y : RegIdx)
  | shl (x y : RegIdx)
  | sneReg (x y : RegIdx)
  | ldI (nnn : Addr12)
  | jpReg (nnn : Addr12)
  | rnd (x : RegIdx) (kk : Byte)
  | drw (x y : RegIdx) (n : Nibble)
  | skp (x : RegIdx)
  | sknp (x : RegIdx)
  | ldDt (x : RegIdx)
  | ldK (x : RegIdx)
  | ldDtSet (x : RegIdx)
  | ldStSet (x : RegIdx)
  | addI (x : RegIdx)
  | ldF (x : RegIdx)
  | ldB (x : RegIdx)
  | ldIReg (x : RegIdx)
  | ldRegI (x : RegIdx)
  deriving DecidableEq, Repr

end Sys2Proof
end

