-- ==== Sys2Proof/WellFormed.lean ====
section
/-! DEFINITION. Which terms of `Instr` stand for an instruction word. The operand fields carry their widths in their
types, so the one check left is that a `sys` term holds a word that no other row of the opcode map claims. -/

namespace Sys2Proof

/-- The words that match none of rows 2 to 35 of the opcode map, by the six groups of 30_encoding.md R63: the top nibble
`op` and the low twelve bits `nnn` of a word that decodes to SYS. -/
def fallbackWord (op : Nibble) (nnn : Addr12) : Bool :=
  match op.toNat with
  | 0x0 => nnn.toNat != 0x0E0 && nnn.toNat != 0x0EE
  | 0x5 => nnn.toNat % 16 != 0
  | 0x8 => [0x8, 0x9, 0xA, 0xB, 0xC, 0xD, 0xF].contains (nnn.toNat % 16)
  | 0x9 => nnn.toNat % 16 != 0
  | 0xE => !List.contains [0x9E, 0xA1] (nnn.toNat % 256)
  | 0xF => !List.contains [0x07, 0x0A, 0x15, 0x18, 0x1E, 0x29, 0x33, 0x55, 0x65] (nnn.toNat % 256)
  | _ => false

/-- A term of `Instr` is well formed when it is what some word decodes to: every term is, but for a `sys` whose word
belongs to another row (R62, R63). -/
def Instr.wf : Instr → Bool
  | .sys op nnn => fallbackWord op nnn
  | .cls | .ret | .jp _ | .call _ => true
  | .se _ _ | .sne _ _ | .seReg _ _ | .sneReg _ _ => true
  | .ld _ _ | .add _ _ | .ldReg _ _ | .or _ _ | .and _ _ | .xor _ _ => true
  | .addReg _ _ | .subReg _ _ | .shr _ _ | .subn _ _ | .shl _ _ | .rnd _ _ => true
  | .ldI _ | .jpReg _ | .drw _ _ _ => true
  | .skp _ | .sknp _ | .ldDt _ | .ldK _ | .ldDtSet _ | .ldStSet _ => true
  | .addI _ | .ldF _ | .ldB _ | .ldIReg _ | .ldRegI _ => true

end Sys2Proof
end

