-- ==== Sys2Proof/Decode.lean ====
section
/-! DEFINITION. The decoder, total on every word and on any bytes, and after it the encoder, both written from the opcode
map of 30_encoding.md (R55 to R63). -/

namespace Sys2Proof

/-! ### The fields of a word (R56) -/

/-- `op = w[15:12]`. -/
def opOf (w : Word) : Nibble := w.extractLsb' 12 4

/-- `x = w[11:8]`. -/
def xOf (w : Word) : RegIdx := w.extractLsb' 8 4

/-- `y = w[7:4]`. -/
def yOf (w : Word) : RegIdx := w.extractLsb' 4 4

/-- `n = w[3:0]`. -/
def nOf (w : Word) : Nibble := w.extractLsb' 0 4

/-- `kk = w[7:0]`. -/
def kkOf (w : Word) : Byte := w.extractLsb' 0 8

/-- `nnn = w[11:0]`. -/
def nnnOf (w : Word) : Addr12 := w.extractLsb' 0 12

/-- The word of two fetched bytes: big-endian, the byte at the lower address supplies bits 15:8 (R48). -/
def wordOfBytes (hi lo : Byte) : Word := hi ++ lo

/-- The byte of a word that lies at the lower address (R48). -/
def highByte (w : Word) : Byte := w.extractLsb' 8 8

/-- The byte of a word that lies at the higher address (R48). -/
def lowByte (w : Word) : Byte := w.extractLsb' 0 8

/-! ### Decoding (R59, R60) -/

/-- The no-op `SYS`, to which every unrecognised word decodes (R59, R63). -/
def decodeFallback (w : Word) : Instr := .sys (opOf w) (nnnOf w)

/-- Family 0: two whole words are named, every other `0nnn` is SYS. -/
def decode0 (w : Word) : Instr :=
  match (nnnOf w).toNat with
  | 0x0E0 => .cls
  | 0x0EE => .ret
  | _ => decodeFallback w

/-- Family 5: `n = 0` only (decision D16). -/
def decode5 (w : Word) : Instr :=
  match (nOf w).toNat with
  | 0x0 => .seReg (xOf w) (yOf w)
  | _ => decodeFallback w

/-- Family 8: dispatch on the low nibble. -/
def decode8 (w : Word) : Instr :=
  match (nOf w).toNat with
  | 0x0 => .ldReg (xOf w) (yOf w)
  | 0x1 => .or (xOf w) (yOf w)
  | 0x2 => .and (xOf w) (yOf w)
  | 0x3 => .xor (xOf w) (yOf w)
  | 0x4 => .addReg (xOf w) (yOf w)
  | 0x5 => .subReg (xOf w) (yOf w)
  | 0x6 => .shr (xOf w) (yOf w)
  | 0x7 => .subn (xOf w) (yOf w)
  | 0xE => .shl (xOf w) (yOf w)
  | _ => decodeFallback w

/-- Family 9: `n = 0` only (decision D16). -/
def decode9 (w : Word) : Instr :=
  match (nOf w).toNat with
  | 0x0 => .sneReg (xOf w) (yOf w)
  | _ => decodeFallback w

/-- Family E: dispatch on the low byte. -/
def decodeE (w : Word) : Instr :=
  match (kkOf w).toNat with
  | 0x9E => .skp (xOf w)
  | 0xA1 => .sknp (xOf w)
  | _ => decodeFallback w

/-- Family F: dispatch on the low byte. -/
def decodeF (w : Word) : Instr :=
  match (kkOf w).toNat with
  | 0x07 => .ldDt (xOf w)
  | 0x0A => .ldK (xOf w)
  | 0x15 => .ldDtSet (xOf w)
  | 0x18 => .ldStSet (xOf w)
  | 0x1E => .addI (xOf w)
  | 0x29 => .ldF (xOf w)
  | 0x33 => .ldB (xOf w)
  | 0x55 => .ldIReg (xOf w)
  | 0x65 => .ldRegI (xOf w)
  | _ => decodeFallback w

/-- `decode(w)`: a pure, total function of the word alone, which never fails (R59). The top nibble selects the family
(R60). -/
def decodeWord (w : Word) : Instr :=
  match (opOf w).toNat with
  | 0x0 => decode0 w
  | 0x1 => .jp (nnnOf w)
  | 0x2 => .call (nnnOf w)
  | 0x3 => .se (xOf w) (kkOf w)
  | 0x4 => .sne (xOf w) (kkOf w)
  | 0x5 => decode5 w
  | 0x6 => .ld (xOf w) (kkOf w)
  | 0x7 => .add (xOf w) (kkOf w)
  | 0x8 => decode8 w
  | 0x9 => decode9 w
  | 0xA => .ldI (nnnOf w)
  | 0xB => .jpReg (nnnOf w)
  | 0xC => .rnd (xOf w) (kkOf w)
  | 0xD => .drw (xOf w) (yOf w) (nOf w)
  | 0xE => decodeE w
  | _ => decodeF w

/-- Why a list of bytes holds no instruction. Words themselves are never rejected (R59, R64). -/
inductive DecodeError where
  /-- Fewer than the two bytes of an instruction are left (R55). Safe: nothing is decoded from a part of a word. -/
  | truncated
  deriving DecidableEq, Repr

/-- The instruction at the head of a list of bytes, and the bytes after it: two bytes each, big-endian (R55, R48). -/
def decodeBytes : List Byte → Except DecodeError (Instr × List Byte)
  | hi :: lo :: rest => .ok (decodeWord (wordOfBytes hi lo), rest)
  | _ => .error .truncated

/-! ### Encoding, from the "encoding" column of the opcode table -/

/-- A word of four nibbles. -/
def packXYN (op : Nibble) (x y : RegIdx) (n : Nibble) : Word := op ++ x ++ y ++ n

/-- A word with an immediate byte. -/
def packXKK (op : Nibble) (x : RegIdx) (kk : Byte) : Word := op ++ x ++ kk

/-- A word with a 12-bit address. -/
def packNNN (op : Nibble) (nnn : Addr12) : Word := op ++ nnn

/-- The word of an instruction (R62, the patterns of its rows). -/
def encode : Instr → Word
  | .sys op nnn => packNNN op nnn
  | .cls => 0x00E0#16
  | .ret => 0x00EE#16
  | .jp nnn => packNNN 0x1#4 nnn
  | .call nnn => packNNN 0x2#4 nnn
  | .se x kk => packXKK 0x3#4 x kk
  | .sne x kk => packXKK 0x4#4 x kk
  | .seReg x y => packXYN 0x5#4 x y 0x0#4
  | .ld x kk => packXKK 0x6#4 x kk
  | .add x kk => packXKK 0x7#4 x kk
  | .ldReg x y => packXYN 0x8#4 x y 0x0#4
  | .or x y => packXYN 0x8#4 x y 0x1#4
  | .and x y => packXYN 0x8#4 x y 0x2#4
  | .xor x y => packXYN 0x8#4 x y 0x3#4
  | .addReg x y => packXYN 0x8#4 x y 0x4#4
  | .subReg x y => packXYN 0x8#4 x y 0x5#4
  | .shr x y => packXYN 0x8#4 x y 0x6#4
  | .subn x y => packXYN 0x8#4 x y 0x7#4
  | .shl x y => packXYN 0x8#4 x y 0xE#4
  | .sneReg x y => packXYN 0x9#4 x y 0x0#4
  | .ldI nnn => packNNN 0xA#4 nnn
  | .jpReg nnn => packNNN 0xB#4 nnn
  | .rnd x kk => packXKK 0xC#4 x kk
  | .drw x y n => packXYN 0xD#4 x y n
  | .skp x => packXKK 0xE#4 x 0x9E#8
  | .sknp x => packXKK 0xE#4 x 0xA1#8
  | .ldDt x => packXKK 0xF#4 x 0x07#8
  | .ldK x => packXKK 0xF#4 x 0x0A#8
  | .ldDtSet x => packXKK 0xF#4 x 0x15#8
  | .ldStSet x => packXKK 0xF#4 x 0x18#8
  | .addI x => packXKK 0xF#4 x 0x1E#8
  | .ldF x => packXKK 0xF#4 x 0x29#8
  | .ldB x => packXKK 0xF#4 x 0x33#8
  | .ldIReg x => packXKK 0xF#4 x 0x55#8
  | .ldRegI x => packXKK 0xF#4 x 0x65#8

/-- The two bytes of an instruction, in the order they lie in memory (R48). -/
def encodeBytes (i : Instr) : List Byte := [highByte (encode i), lowByte (encode i)]

/-! ### The opcode table's words -/

/-- The word of an opcode-table row whose bits are `w`: the row has `nbits` bits, every bit above them is 0, and bit 0 is
the least significant bit of the (only) word. -/
def tableWord (nbits w : Nat) : Word := BitVec.ofNat 16 (w % 2 ^ nbits)

/-- What the decoder reads from the bytes of a table row's word, laid out in memory as R48 says. -/
def decodeTableWord (nbits w : Nat) : Option Instr :=
  match decodeBytes [highByte (tableWord nbits w), lowByte (tableWord nbits w)] with
  | .ok (i, _) => some i
  | .error _ => none

end Sys2Proof
end

