-- ==== Sys2Proof/Config.lean ====
section
/-! DEFINITION. What is fixed outside the state or left free: the four configuration parameters of 00_scope.md R8, and the
free values (constants with no body, so that nothing proved can rest on a value of theirs). -/

namespace Sys2Proof

/-- `SUBN_FLAG_COND` (R8, R119, decision D3): which strict comparison of the old `Vx` and `Vy` makes SUBN set VF. -/
inductive SubnFlagCond where
  | vyGtVx
  | vxGtVy
  deriving DecidableEq, Repr

/-- `SUBN_VF_ELSE` (R8, R119, decision D4): what SUBN does to VF when its condition fails. -/
inductive SubnVfElse where
  | keep
  | clear
  deriving DecidableEq, Repr

/-- The configuration parameters of R8, which "a model takes ... as an argument". They are plain data held in the state
(log entry 5); no step changes them. The default values stand in Machine/Defaults.lean. -/
structure Config where
  /-- `FONT_BASE`: the address of the built-in font, 0..4016 (R8). -/
  fontBase : Fin 4017
  /-- `FONT`: 16 glyphs of 5 bytes, top row first (R7, R46). -/
  font : Vector (Vector Byte 5) 16
  /-- `SUBN_FLAG_COND`. -/
  subnFlagCond : SubnFlagCond
  /-- `SUBN_VF_ELSE`. -/
  subnVfElse : SubnVfElse
  deriving DecidableEq, Repr

/-! ### The free values

The three input ports of 40_step_cycle.md R71 answer whatever the host's collaborators answer: "a model must treat every
sampled value as a free input". Sample number `d` of a run (the counter `State.draws`) is the port's answer at `d`; nothing
constrains it (log entry 3). -/

/-- `RandomByte()` at sample `d`, drawn by RND (R71, R121). FREE VALUE. -/
opaque Config.randomByte (d : Nat) : Byte

/-- `KeyDown(k)` at sample `d`, asked by SKP and SKNP (R71, R143, R144). FREE VALUE. -/
opaque Config.keyDown (d : Nat) (k : Key) : Bool

/-- `NextKey()` at sample `d`, asked by LD_K: none, or a key 0..15 (R71, R145). FREE VALUE. -/
opaque Config.nextKey (d : Nat) : Option Key

/-- What the `pc` register holds before a ROM is loaded: "no value", "invalid until a ROM is loaded" (10_state.md R18, R30;
91_not_in_source.md N5). FREE VALUE (log entry 4); no step reads it, and Load overwrites it. -/
opaque Config.pcBeforeLoad : Word

end Sys2Proof
end

