-- ==== Sys2Proof/Machine/Defaults.lean ====
section
/-! DEFINITION. The default values of the configuration parameters (00_scope.md R8; decisions D1 to D4), and what they and
the reset make of memory: the byte each address holds before anything is stored (10_state.md R30, 20_memory.md R45). -/

namespace Sys2Proof.Machine

/-- `MEM_SIZE` (R7). -/
def memSize : Nat := 4096

/-- The 80 font bytes of R46, one row per digit, top row first. PRESUMED by the spec ("from general knowledge, not in
source"): log entry 5. -/
def defaultFont : Vector (Vector Byte 5) 16 :=
  #v[#v[0xF0, 0x90, 0x90, 0x90, 0xF0],
     #v[0x20, 0x60, 0x20, 0x20, 0x70],
     #v[0xF0, 0x10, 0xF0, 0x80, 0xF0],
     #v[0xF0, 0x10, 0xF0, 0x10, 0xF0],
     #v[0x90, 0x90, 0xF0, 0x10, 0x10],
     #v[0xF0, 0x80, 0xF0, 0x10, 0xF0],
     #v[0xF0, 0x80, 0xF0, 0x90, 0xF0],
     #v[0xF0, 0x10, 0x20, 0x40, 0x40],
     #v[0xF0, 0x90, 0xF0, 0x90, 0xF0],
     #v[0xF0, 0x90, 0xF0, 0x10, 0xF0],
     #v[0xF0, 0x90, 0xF0, 0x90, 0x90],
     #v[0xE0, 0x90, 0xE0, 0x90, 0xE0],
     #v[0xF0, 0x80, 0x80, 0x80, 0xF0],
     #v[0xE0, 0x90, 0x90, 0x90, 0xE0],
     #v[0xF0, 0x80, 0xF0, 0x80, 0xF0],
     #v[0xF0, 0x80, 0xF0, 0x80, 0x80]]

/-- The default parameters of R8: `FONT_BASE = 0x000`, `FONT` = the table of R46, `SUBN_FLAG_COND = VY_GT_VX`,
`SUBN_VF_ELSE = KEEP`. -/
def defaultConfig : Config where
  fontBase := 0
  font := defaultFont
  subnFlagCond := .vyGtVx
  subnVfElse := .keep

/-- `FONT[k]`, the font as a sequence of 80 bytes: byte `k mod 5` of the glyph for digit `k div 5` (R46). -/
def fontByte (cfg : Config) (k : Fin 80) : Byte :=
  cfg.font[k.val / 5][k.val % 5]

/-- What the byte at address `a` holds when nothing has been stored there: the font from `FONT_BASE` on, zero elsewhere
(R30 "All other bytes initialize to zero"; R45). -/
def unlistedByte (cfg : Config) (a : Nat) : Byte :=
  if h : a - cfg.fontBase.val < 80 then
    if cfg.fontBase.val ≤ a then fontByte cfg ⟨a - cfg.fontBase.val, h⟩ else 0
  else 0

end Sys2Proof.Machine
end

