-- ==== Sys2Proof/Machine/State.lean ====
section
/-! DEFINITION. The state of the core, 10_state.md: "State = { status, V[0..15], I, pc, stack[0..15], sp, DT, ST,
mem[0..4095], fb[0..255] }", and beside it the two fields that are the model's own (the configuration and the draw counter);
the reasons a step stops; the state after reset. -/

namespace Sys2Proof.Machine

/-- The kinds of fault of 60_exceptions.md R170. -/
inductive FaultKind where
  | outOfBounds
  | stackUnderflow
  | stackOverflow
  deriving DecidableEq, Repr

/-- The fault record `rec` of R179. -/
structure FaultRecord where
  /-- The kind of R170. -/
  kind : FaultKind
  /-- The address the faulting step fetched from, or tried to fetch from. -/
  pc : Word
  /-- The instruction word, or none for a fetch fault. -/
  word : Option Word
  /-- The lowest out-of-range address, or the key value, or none (R171 to R173). -/
  info : Option Nat
  deriving DecidableEq, Repr

/-- `status`, the lifecycle state of R25. -/
inductive Status where
  | unloaded
  | running
  | faulted (rec : FaultRecord)
  deriving DecidableEq, Repr

/-- Memory: the bytes that differ from what the reset left (`unlistedByte`), as (address, byte) pairs in rising order of
address. Its canonical form is `Memory.wf` in Machine/Ops.lean. -/
abbrev Memory := List Host.Cell

/-- The framebuffer, 64 x 32 / 8 bytes (R28). -/
abbrev Framebuffer := Vector Byte 256

/-- The whole state of the core (10_state.md). -/
structure State where
  /-- `status` (R25). -/
  status : Status
  /-- `V[0..15]` (R16); `V[15]` is VF (R17). -/
  v : Vector Byte 16
  /-- `I` (R21). -/
  i : Word
  /-- `pc` (R18). -/
  pc : Word
  /-- `stack[0..15]` (R26). -/
  stack : Vector Word 16
  /-- `sp`, an integer in 0..16 (R22). -/
  sp : Fin 17
  /-- `DT` (R23). -/
  dt : Byte
  /-- `ST` (R24). -/
  st : Byte
  /-- `mem[0..4095]` (R27). -/
  mem : Memory
  /-- `fb[0..255]` (R28). -/
  fb : Framebuffer
  /-- The MODEL's own: the parameters of R8 this machine was built with; no step changes them (log entry 5). -/
  cfg : Config
  /-- The MODEL's own: how many samples of the input ports were taken; the free values of Config are applied to it (R71, log
  entry 3). -/
  draws : Nat
  deriving DecidableEq, Repr

/-- Why the machine stops. -/
inductive Fault where
  /-- Raised by `step` on a machine whose status is already Faulted(rec): the step "changes nothing and reports Fault(rec)
  again" (40_step_cycle.md R79). Safe: the spec's machine does nothing more either. -/
  | alreadyFaulted (rec : FaultRecord)
  deriving DecidableEq, Repr

/-- Why a step has no meaning. -/
inductive Refusal where
  /-- Raised by an arm of `exec` whose instruction has no meaning yet. Safe: nothing is claimed of it. No arm of this model
  answers it. -/
  | notModelled (mnemonic : String)
  /-- Raised by `step` on a machine whose status is Unloaded: the spec's Refused(NotLoaded), nothing changes (R78). Safe: the
  spec refuses it too. -/
  | notLoaded
  deriving DecidableEq, Repr

/-- The state right after reset, which is `New` and then `Load` (70_reset_and_hazards.md R190, R191): R30's column "after
successful load", with the empty ROM, which Load accepts (R191; log entry 1), and the default parameters of R8. -/
def State.reset : State where
  status := .running
  v := Vector.replicate 16 0
  i := 0
  pc := 0x200
  stack := Vector.replicate 16 0
  sp := 0
  dt := 0
  st := 0
  mem := []
  fb := Vector.replicate 256 0
  cfg := defaultConfig
  draws := 0

end Sys2Proof.Machine
end

