-- ==== Sys2Proof/Machine/Ops.lean ====
section
/-! DEFINITION. The named operations on the state: registers, memory, fetch, the moves of `pc`, the return stack, the input
ports, taking a fault, and the aging of the timers. -/

namespace Sys2Proof.Machine

/-! ### General registers (R13, R16) -/

/-- `V[x]`. -/
def State.getV (s : State) (x : RegIdx) : Byte := s.v[x.toNat]

/-- `V[x] <- b`. No register is hardwired (R16). -/
def State.setV (s : State) (x : RegIdx) (b : Byte) : State :=
  { s with v := s.v.set x.toNat b }

/-- The index of VF, register 0xF (R17). -/
def vf : RegIdx := 0xF#4

/-! ### Memory (20_memory.md) -/

/-- The canonical form of memory: addresses strictly rising, each inside the address space (R40), and no entry equal to
what an unlisted address reads as. -/
abbrev Memory.wf (cfg : Config) (m : Memory) : Prop :=
  m.Pairwise (fun c d => c.1 < d.1) ∧ ∀ c ∈ m, c.1 < memSize ∧ c.2 ≠ unlistedByte cfg c.1

/-- The byte listed at an address, if one is. -/
def Memory.listed : Memory → Nat → Option Byte
  | [], _ => none
  | (c, d) :: m, a => if c = a then some d else Memory.listed m a

/-- Lists a byte at an address, in its place in the order. -/
def Memory.insert : Memory → Nat → Byte → Memory
  | [], a, b => [(a, b)]
  | (c, d) :: m, a, b =>
    if a < c then (a, b) :: (c, d) :: m
    else if a = c then (a, b) :: m
    else (c, d) :: Memory.insert m a b

/-- Unlists an address. -/
def Memory.remove : Memory → Nat → Memory
  | [], _ => []
  | (c, d) :: m, a => if c = a then Memory.remove m a else (c, d) :: Memory.remove m a

/-- Reads a byte. -/
def Memory.read (cfg : Config) (m : Memory) (a : Nat) : Byte :=
  (Memory.listed m a).getD (unlistedByte cfg a)

/-- Writes a byte, keeping the canonical form. -/
def Memory.write (cfg : Config) (m : Memory) (a : Nat) (b : Byte) : Memory :=
  if b = unlistedByte cfg a then Memory.remove m a else Memory.insert m a b

/-- `mem[a]`, for an address already checked to be in range. -/
def State.peek (s : State) (a : Nat) : Byte := Memory.read s.cfg s.mem a

/-- `mem[a] <- b`, for an address already checked to be in range. -/
def State.poke (s : State) (a : Nat) (b : Byte) : State :=
  { s with mem := Memory.write s.cfg s.mem a b }

/-- `MemRead(addr, 1)`: the byte, or the address raised with OutOfBounds (R42). -/
def State.memRead (s : State) (a : Nat) : Except Nat Byte :=
  if a > 0xFFF then .error a else .ok (s.peek a)

/-- `MemWrite(addr, 1, v)`: the state with the byte stored, or the address raised with OutOfBounds (R43). -/
def State.memWrite (s : State) (a : Nat) (b : Byte) : Except Nat State :=
  if a > 0xFFF then .error a else .ok (s.poke a b)

/-- The bytes at `base`, `base + 1`, ..., `n` of them, lowest address first. -/
def State.peekBytes (s : State) (base : Nat) : Nat → List Byte
  | 0 => []
  | n + 1 => s.peek base :: s.peekBytes (base + 1) n

/-- Stores bytes at ascending addresses (R47). -/
def State.pokeBytes (s : State) (base : Nat) : List Byte → State
  | [] => s
  | b :: bs => (s.poke base b).pokeBytes (base + 1) bs

/-- The check before a multi-byte access of `n` bytes from `base` (R44): the lowest address out of range, if there is one. -/
def rangeFault (base n : Nat) : Option Nat :=
  if 0 < n ∧ base + n - 1 > 0xFFF then some (max base 0x1000) else none

/-! ### Fetch and the moves of `pc` (R72 to R74) -/

/-- `Fetch(a)`: the big-endian word at `a`, or the lowest out-of-range address of the pair (R73, R48). -/
def State.fetch (s : State) (a : Nat) : Except Nat Word :=
  if a > 0xFFF then .error a
  else if a + 1 > 0xFFF then .error (a + 1)
  else .ok (wordOfBytes (s.peek a) (s.peek (a + 1)))

/-- `pc <- target`. -/
def State.setPc (s : State) (target : Word) : State := { s with pc := target }

/-- `pc <- pc + 2`: the advance after a fetch (R74), and the effect of a skip (R100). -/
def State.advancePc (s : State) : State := s.setPc (s.pc + 2)

/-- `pc <- pc - 2`: back to the address of the instruction being executed. -/
def State.rewindPc (s : State) : State := s.setPc (s.pc - 2)

/-- The effect of a skip instruction: 2 more than the advance already applied when the condition holds (R100 to R103). -/
def State.skipIf (s : State) (c : Bool) : State := if c then s.advancePc else s

/-- `I <- w`. -/
def State.setI (s : State) (w : Word) : State := { s with i := w }

/-- `DT <- b`. -/
def State.setDt (s : State) (b : Byte) : State := { s with dt := b }

/-- `ST <- b`. -/
def State.setSt (s : State) (b : Byte) : State := { s with st := b }

/-- `fb <- f`. -/
def State.setFb (s : State) (f : Framebuffer) : State := { s with fb := f }

/-! ### The return stack (R22, R26, decision D6) -/

/-- The push of CALL: `stack[sp] <- w; sp <- sp + 1`; none when all 16 entries are occupied (R93). -/
def State.push (s : State) (w : Word) : Option State :=
  if h : s.sp.val < 16 then
    some { s with stack := s.stack.set s.sp.val w, sp := ⟨s.sp.val + 1, by omega⟩ }
  else none

/-- The pop of RET: `sp <- sp - 1`, with the value of `stack[sp]` after it; none when no entry is occupied (R91). The popped
entry keeps its value (R26). -/
def State.pop (s : State) : Option (Word × State) :=
  if h : 0 < s.sp.val then
    some (s.stack[s.sp.val - 1]'(by omega), { s with sp := ⟨s.sp.val - 1, by omega⟩ })
  else none

/-! ### The input ports (R71): each sample is a free value, and a sample is never used twice -/

/-- One more sample has been taken. -/
def State.drawn (s : State) : State := { s with draws := s.draws + 1 }

/-- `RandomByte()`: the sample, and the state after it. -/
def State.sampleRandom (s : State) : Byte × State := (Config.randomByte s.draws, s.drawn)

/-- `KeyDown(k)`: the sample, and the state after it. -/
def State.sampleKeyDown (s : State) (k : Key) : Bool × State := (Config.keyDown s.draws k, s.drawn)

/-- `NextKey()`: the sample, and the state after it. -/
def State.sampleNextKey (s : State) : Option Key × State := (Config.nextKey s.draws, s.drawn)

/-! ### Faults (60_exceptions.md) -/

/-- The cause codes of R170. -/
def FaultKind.code : FaultKind → Nat
  | .outOfBounds => 1
  | .stackUnderflow => 2
  | .stackOverflow => 3

/-- TAKING A FAULT, from the state of before the step (R178): only `status` changes, to Faulted(rec) with the record of
R179, whose `pc` is the address the step fetched from. No return from it exists (R181). -/
def State.takeFault (s : State) (kind : FaultKind) (word : Option Word) (info : Option Nat) : State :=
  { s with status := .faulted { kind := kind, pc := s.pc, word := word, info := info } }

/-- `raise Fault(kind, info)` in the execute phase of the instruction `i` (R13, R72). The state of before the step is
restored: an instruction checks before it acts (R44, R77), so what is to be undone is the step's own advance of `pc`. -/
def State.raise (s : State) (i : Instr) (kind : FaultKind) (info : Option Nat) : State :=
  s.rewindPc.takeFault kind (some (encode i)) info

/-- Whether a fault has been taken. -/
def State.isFaulted (s : State) : Bool :=
  match s.status with
  | .faulted _ => true
  | .running | .unloaded => false

/-! ### The end of a step (R76) -/

/-- One tick of a timer: down by one while it is nonzero. -/
def ageTimer (t : Byte) : Byte := if t = 0 then 0 else t - 1

/-- Both timers aged by one. -/
def State.ageTimers (s : State) : State := { s with dt := ageTimer s.dt, st := ageTimer s.st }

/-- After the execute phase: the timers are aged, unless the phase raised a fault (R76, R77). -/
def State.finish (s : State) : State := if s.isFaulted then s else s.ageTimers

end Sys2Proof.Machine
end

