-- ==== Sys2Proof/Machine/Flags.lean ====
section
/-! DEFINITION. Every flag computation of the core. The one flag is VF (10_state.md R17, R20). -/

namespace Sys2Proof.Machine

/-- `bool(c)`: 1 when the condition holds, and 0 otherwise (00_scope.md R13). -/
def boolByte (c : Bool) : Byte := if c then 1 else 0

/-- The carry of ADD_REG: the exact sum is 256 or more (R116). -/
def carryFlag (a b : Byte) : Byte := boolByte (decide (a.toNat + b.toNat ≥ 256))

/-- The no-borrow flag of SUB_REG, equality included (R117). -/
def noBorrowFlag (a b : Byte) : Byte := boolByte (decide (a.toNat ≥ b.toNat))

/-- The condition of SUBN on the old `Vx` and `Vy`, strict in both settings of `SUBN_FLAG_COND` (R119). -/
def subnCond (c : SubnFlagCond) (vx vy : Byte) : Bool :=
  match c with
  | .vyGtVx => decide (vy.toNat > vx.toNat)
  | .vxGtVy => decide (vx.toNat > vy.toNat)

/-- The bit SHR shifts out: bit 0 (R118). -/
def shrFlag (a : Byte) : Byte := a &&& 1

/-- The bit SHL shifts out: bit 7 (R120). -/
def shlFlag (a : Byte) : Byte := a >>> 7

/-- `V[0xF] <- b`. -/
def State.setVf (s : State) (b : Byte) : State := s.setV vf b

/-- What SUBN does to VF after it has written its result (R119): 1 when the condition holds; otherwise VF is kept or cleared,
as `SUBN_VF_ELSE` says. -/
def State.setSubnFlag (s : State) (vx vy : Byte) : State :=
  if subnCond s.cfg.subnFlagCond vx vy then s.setVf 1
  else
    match s.cfg.subnVfElse with
    | .keep => s
    | .clear => s.setVf 0

end Sys2Proof.Machine
end

