-- ==== Sys2Proof/Machine/Operands.lean ====
section
/-! DEFINITION. The operand forms of 30_encoding.md R57 (register index, immediate byte, 12-bit address, 4-bit count) and the
one addressing mode, `I + k` (44_index_memory.md, 20_memory.md R41). Register operands are read by `State.getV`; an immediate
byte and a count of rows are used as they are. -/

namespace Sys2Proof.Machine

/-- A 12-bit address stored into the 16-bit `pc` or `I`: `zext_16(nnn)` (R57). -/
def zext16 (nnn : Addr12) : Word := nnn.setWidth 16

/-- A register's value in 16-bit arithmetic: `zext_16(V[x])`. -/
def zextByte (b : Byte) : Word := b.setWidth 16

/-- The effective address `I + k`, exact, with no wrap (R41). -/
def State.effAddr (s : State) (k : Nat) : Nat := s.i.toNat + k

/-- The key a register value names: none when it is above 15 (R143, R144). -/
def keyOf (b : Byte) : Option Key := if b.toNat > 15 then none else some (b.setWidth 4)

/-- A key index stored into a register (R145). -/
def byteOfKey (k : Key) : Byte := k.setWidth 8

/-- How many bytes LD_I_REG and LD_REG_I move: `V[0]` to `V[x]` inclusive (R134, R135). -/
def regCount (x : RegIdx) : Nat := x.toNat + 1

/-- The values of `V[0]`, ..., `V[n - 1]`, lowest first. -/
def State.regBytes (s : State) (n : Nat) : List Byte :=
  (List.range n).map fun k => s.getV (BitVec.ofNat 4 k)

/-- Writes bytes to the registers from `V[k]` on, ascending. -/
def State.setRegs (s : State) (k : Nat) : List Byte → State
  | [] => s
  | b :: bs => (s.setV (BitVec.ofNat 4 k) b).setRegs (k + 1) bs

/-- The three decimal digits of a byte: hundreds, tens, ones (R133). -/
def decimalDigits (b : Byte) : List Byte :=
  [BitVec.ofNat 8 (b.toNat / 100), BitVec.ofNat 8 (b.toNat / 10 % 10), BitVec.ofNat 8 (b.toNat % 10)]

end Sys2Proof.Machine
end

