-- ==== Sys2Proof/Machine/Alu.lean ====
section
/-! DEFINITION. Register load and arithmetic instructions (43_alu.md). All arithmetic is unsigned 8-bit and modular (R122). The
flag-setting instructions write `V[x]` and VF in the order the source writes the two (R14, decision D5), which decides their
result when `x = 0xF`. -/

namespace Sys2Proof.Machine

/-- LD Vx, kk (R110). -/
def execLd (x : RegIdx) (kk : Byte) (s : State) : Host.Outcome State Fault Refusal :=
  .next (s.setV x kk)

/-- ADD Vx, kk (R111): wraps, with no flag. -/
def execAdd (x : RegIdx) (kk : Byte) (s : State) : Host.Outcome State Fault Refusal :=
  .next (s.setV x (s.getV x + kk))

/-- LD_REG Vx, Vy (R112). -/
def execLdReg (x y : RegIdx) (s : State) : Host.Outcome State Fault Refusal :=
  .next (s.setV x (s.getV y))

/-- OR Vx, Vy (R113). -/
def execOr (x y : RegIdx) (s : State) : Host.Outcome State Fault Refusal :=
  .next (s.setV x (s.getV x ||| s.getV y))

/-- AND Vx, Vy (R114). -/
def execAnd (x y : RegIdx) (s : State) : Host.Outcome State Fault Refusal :=
  .next (s.setV x (s.getV x &&& s.getV y))

/-- XOR Vx, Vy (R115). -/
def execXor (x y : RegIdx) (s : State) : Host.Outcome State Fault Refusal :=
  .next (s.setV x (s.getV x ^^^ s.getV y))

/-- ADD_REG Vx, Vy (R116): the sum into `V[x]`, then the carry into VF. -/
def execAddReg (x y : RegIdx) (s : State) : Host.Outcome State Fault Refusal :=
  let vx0 := s.getV x
  let vy0 := s.getV y
  .next ((s.setV x (vx0 + vy0)).setVf (carryFlag vx0 vy0))

/-- SUB_REG Vx, Vy (R117): the difference into `V[x]`, then the no-borrow flag into VF. -/
def execSubReg (x y : RegIdx) (s : State) : Host.Outcome State Fault Refusal :=
  let vx0 := s.getV x
  let vy0 := s.getV y
  .next ((s.setV x (vx0 - vy0)).setVf (noBorrowFlag vx0 vy0))

/-- SHR Vx (R118): the bit shifted out into VF, then `V[x]`, read again, shifted right by one. `y` is ignored (R61). -/
def execShr (x _y : RegIdx) (s : State) : Host.Outcome State Fault Refusal :=
  let s1 := s.setVf (shrFlag (s.getV x))
  .next (s1.setV x (s1.getV x >>> 1))

/-- SUBN Vx, Vy (R119): `Vy - Vx` into `V[x]`, then VF as the two parameters say. -/
def execSubn (x y : RegIdx) (s : State) : Host.Outcome State Fault Refusal :=
  let vx0 := s.getV x
  let vy0 := s.getV y
  .next ((s.setV x (vy0 - vx0)).setSubnFlag vx0 vy0)

/-- SHL Vx (R120): the bit shifted out into VF, then `V[x]`, read again, shifted left by one. `y` is ignored (R61). -/
def execShl (x _y : RegIdx) (s : State) : Host.Outcome State Fault Refusal :=
  let s1 := s.setVf (shlFlag (s.getV x))
  .next (s1.setV x (s1.getV x <<< 1))

/-- RND Vx, kk (R121): one sample of the random port, masked by `kk`. -/
def execRnd (x : RegIdx) (kk : Byte) (s : State) : Host.Outcome State Fault Refusal :=
  let (r, s1) := s.sampleRandom
  .next (s1.setV x (kk &&& r))

end Sys2Proof.Machine
end

