-- ==== Sys2Proof/Machine/Framebuffer.lean ====
section
/-! DEFINITION. The framebuffer operations of 46_display.md: pixels and their packing (R150, R151), FbClear (R152), FbDraw and
its collision (R153, R154), and the pixel readout (R155). The byte-level form of R158 stands beside them, to be compared. -/

namespace Sys2Proof.Machine

/-- A pixel's place: column 0..63 from the left, row 0..31 from the top (R150). -/
abbrev Pixel := Fin 64 × Fin 32

/-- The byte of the framebuffer that holds a pixel: `row * 8 + col div 8` (R151). -/
def pixelByte (p : Pixel) : Fin 256 := ⟨p.2.val * 8 + p.1.val / 8, by omega⟩

/-- The bit of that byte: `7 - (col mod 8)`, most significant bit first (R151, R10). -/
def pixelBit (p : Pixel) : Nat := 7 - p.1.val % 8

/-- `FbPixel(col, row)`: whether the pixel is set (R151). -/
def fbPixel (fb : Framebuffer) (p : Pixel) : Bool := fb[pixelByte p].getLsbD (pixelBit p)

/-- `FbToggle(col, row)` (R151). -/
def fbToggle (fb : Framebuffer) (p : Pixel) : Framebuffer :=
  fb.set (pixelByte p).val (fb[pixelByte p] ^^^ (1#8 <<< pixelBit p))

/-- `FbClear()`: every byte 0 (R152). -/
def fbClear : Framebuffer := Vector.replicate 256 0

/-- Where bit `7 - j` of sprite row `r` lands when the sprite is drawn at `(x, y)`: both axes wrap (R153). -/
def spritePixel (x y : Byte) (r j : Nat) : Pixel :=
  (Fin.ofNat 64 (x.toNat + j), Fin.ofNat 32 (y.toNat + r))

/-- The pixels that the set bits of sprite row `r` land on, left to right. -/
def spriteRowPixels (x y : Byte) (r : Nat) (b : Byte) : List Pixel :=
  ((List.range 8).filter fun j => b.getLsbD (7 - j)).map fun j => spritePixel x y r j

/-- The pixels that the set bits of the sprite rows from row `r` on land on, in the order FbDraw visits them (R153). -/
def spritePixelsFrom (x y : Byte) (r : Nat) : List Byte → List Pixel
  | [] => []
  | b :: bs => spriteRowPixels x y r b ++ spritePixelsFrom x y (r + 1) bs

/-- The pixels a sprite touches, in order (R153). -/
def spritePixels (x y : Byte) (bytes : List Byte) : List Pixel := spritePixelsFrom x y 0 bytes

/-- `FbDraw(x, y, bytes)`: pass 1 tests for a collision before any XOR, pass 2 toggles every pixel of a set sprite bit (R153,
R154). The result is the new bitmap and the collision. -/
def fbDraw (fb : Framebuffer) (x y : Byte) (bytes : List Byte) : Framebuffer × Bool :=
  ((spritePixels x y bytes).foldl fbToggle fb, (spritePixels x y bytes).any (fbPixel fb))

/-- `Readout`: one byte per pixel, row-major, 255 when it is set and 0 when it is clear (R155). -/
def fbReadout (fb : Framebuffer) : Vector Byte 2048 :=
  Vector.ofFn fun k : Fin 2048 =>
    if fbPixel fb (Fin.ofNat 64 (k.val % 64), Fin.ofNat 32 (k.val / 64)) then 255 else 0

/-! ### The byte-level form (R158) -/

/-- One row of a sprite byte-level: the two framebuffer bytes it touches, the second one wrapping within the row (R158). -/
def rowDrawBytes (fb : Framebuffer) (x : Byte) (row : Fin 32) (b : Byte) : Framebuffer × Bool :=
  let c0 := x.toNat % 64
  let bi := c0 / 8
  let off := c0 % 8
  let i0 : Fin 256 := ⟨row.val * 8 + bi, by omega⟩
  let i1 : Fin 256 := ⟨row.val * 8 + (bi + 1) % 8, by omega⟩
  let left : Byte := b >>> off
  let right : Byte := b <<< (8 - off)
  let hit := fb[i0] &&& left != 0 || off != 0 && fb[i1] &&& right != 0
  let fb0 := fb.set i0.val (fb[i0] ^^^ left)
  (if off = 0 then fb0 else fb0.set i1.val (fb0[i1] ^^^ right), hit)

/-- The whole sprite byte-level, row by row from sprite row `r` on (R158). -/
def fbDrawBytesFrom (fb : Framebuffer) (x y : Byte) (r : Nat) : List Byte → Framebuffer × Bool
  | [] => (fb, false)
  | b :: bs =>
    let (fb1, hit) := rowDrawBytes fb x (Fin.ofNat 32 (y.toNat + r)) b
    let (fb2, hits) := fbDrawBytesFrom fb1 x y (r + 1) bs
    (fb2, hit || hits)

end Sys2Proof.Machine
end

