-- ==== Sys2Proof/Machine/Display.lean ====
section
/-! DEFINITION. The display instructions (46_display.md): CLS and DRW. -/

namespace Sys2Proof.Machine

/-- CLS (R156). -/
def execCls (s : State) : Host.Outcome State Fault Refusal :=
  .next (s.setFb fbClear)

/-- DRW Vx, Vy, n (R157): the coordinates are read before VF is written; the sprite bytes are `mem[I .. I + n - 1]`; VF ends
as the collision. -/
def execDrw (x y : RegIdx) (n : Nibble) (s : State) : Host.Outcome State Fault Refusal :=
  match rangeFault (s.effAddr 0) n.toNat with
  | some a => .next (s.raise (.drw x y n) .outOfBounds (some a))
  | none =>
    let (fb, c) := fbDraw s.fb (s.getV x) (s.getV y) (s.peekBytes (s.effAddr 0) n.toNat)
    .next ((s.setFb fb).setVf (boolByte c))

end Sys2Proof.Machine
end

