-- ==== Sys2Proof/Machine/Flow.lean ====
section
/-! DEFINITION. System and control-transfer instructions (41_flow.md): SYS, RET, JP, CALL, JP_REG. On entry `pc` already holds
the address of the instruction plus 2 (R74). -/

namespace Sys2Proof.Machine

/-- SYS (R90): nothing. -/
def execSys (_op : Nibble) (_nnn : Addr12) (s : State) : Host.Outcome State Fault Refusal :=
  .next s

/-- RET (R91): the pop of the return stack into `pc`; StackUnderflow when it is empty (R173). -/
def execRet (s : State) : Host.Outcome State Fault Refusal :=
  match s.pop with
  | none => .next (s.raise .ret .stackUnderflow none)
  | some (target, s1) => .next (s1.setPc target)

/-- JP nnn (R92): `pc <- zext_16(nnn)`. -/
def execJp (nnn : Addr12) (s : State) : Host.Outcome State Fault Refusal :=
  .next (s.setPc (zext16 nnn))

/-- CALL nnn (R93): pushes `pc`, the address after the CALL, and jumps; StackOverflow when 16 calls are outstanding (R172). -/
def execCall (nnn : Addr12) (s : State) : Host.Outcome State Fault Refusal :=
  match s.push s.pc with
  | none => .next (s.raise (.call nnn) .stackOverflow none)
  | some s1 => .next (s1.setPc (zext16 nnn))

/-- JP_REG nnn (R94): `pc <- zext_16(nnn) + V[0]`. The sum is at most 0x10FE, so the 16-bit sum is the exact one. -/
def execJpReg (nnn : Addr12) (s : State) : Host.Outcome State Fault Refusal :=
  .next (s.setPc (zext16 nnn + zextByte (s.getV 0)))

end Sys2Proof.Machine
end

