-- ==== Sys2Proof/Machine/IndexMemory.lean ====
section
/-! DEFINITION. Index-register and memory instructions (44_index_memory.md). The effective addresses `I + k` are checked before
any access (R44); no access changes `I`. -/

namespace Sys2Proof.Machine

/-- LD_I nnn (R130). -/
def execLdI (nnn : Addr12) (s : State) : Host.Outcome State Fault Refusal :=
  .next (s.setI (zext16 nnn))

/-- ADD_I Vx (R131): wraps modulo 65536, with no flag. -/
def execAddI (x : RegIdx) (s : State) : Host.Outcome State Fault Refusal :=
  .next (s.setI (s.i + zextByte (s.getV x)))

/-- LD_F Vx (R132): `I <- zext_16(V[x]) * 5`, the full 8-bit value, without `FONT_BASE`. -/
def execLdF (x : RegIdx) (s : State) : Host.Outcome State Fault Refusal :=
  .next (s.setI (zextByte (s.getV x) * 5))

/-- LD_B Vx (R133): the decimal digits of `V[x]` at `I`, `I + 1`, `I + 2`. -/
def execLdB (x : RegIdx) (s : State) : Host.Outcome State Fault Refusal :=
  match rangeFault (s.effAddr 0) 3 with
  | some a => .next (s.raise (.ldB x) .outOfBounds (some a))
  | none => .next (s.pokeBytes (s.effAddr 0) (decimalDigits (s.getV x)))

/-- LD_I_REG Vx (R134): `V[0]` to `V[x]` stored from `I` on. -/
def execLdIReg (x : RegIdx) (s : State) : Host.Outcome State Fault Refusal :=
  match rangeFault (s.effAddr 0) (regCount x) with
  | some a => .next (s.raise (.ldIReg x) .outOfBounds (some a))
  | none => .next (s.pokeBytes (s.effAddr 0) (s.regBytes (regCount x)))

/-- LD_REG_I Vx (R135): `V[0]` to `V[x]` loaded from `I` on. -/
def execLdRegI (x : RegIdx) (s : State) : Host.Outcome State Fault Refusal :=
  match rangeFault (s.effAddr 0) (regCount x) with
  | some a => .next (s.raise (.ldRegI x) .outOfBounds (some a))
  | none => .next (s.setRegs 0 (s.peekBytes (s.effAddr 0) (regCount x)))

end Sys2Proof.Machine
end

