-- ==== Sys2Proof/Machine/TimersKeys.lean ====
section
/-! DEFINITION. Timer and key instructions (45_timers_keys.md). A timer written here is aged by the same step (R76). -/

namespace Sys2Proof.Machine

/-- LD_DT Vx (R140): the value of `DT` before this step's aging. -/
def execLdDt (x : RegIdx) (s : State) : Host.Outcome State Fault Refusal :=
  .next (s.setV x s.dt)

/-- LD_DT_SET Vx (R141). -/
def execLdDtSet (x : RegIdx) (s : State) : Host.Outcome State Fault Refusal :=
  .next (s.setDt (s.getV x))

/-- LD_ST_SET Vx (R142). -/
def execLdStSet (x : RegIdx) (s : State) : Host.Outcome State Fault Refusal :=
  .next (s.setSt (s.getV x))

/-- SKP Vx (R143): skips when key `V[x]` is down; OutOfBounds, with the key value, when `V[x] > 15`, and then nothing is
sampled. -/
def execSkp (x : RegIdx) (s : State) : Host.Outcome State Fault Refusal :=
  match keyOf (s.getV x) with
  | none => .next (s.raise (.skp x) .outOfBounds (some (s.getV x).toNat))
  | some k =>
    let (down, s1) := s.sampleKeyDown k
    .next (s1.skipIf down)

/-- SKNP Vx (R144): skips when key `V[x]` is not down; OutOfBounds as SKP. -/
def execSknp (x : RegIdx) (s : State) : Host.Outcome State Fault Refusal :=
  match keyOf (s.getV x) with
  | none => .next (s.raise (.sknp x) .outOfBounds (some (s.getV x).toNat))
  | some k =>
    let (down, s1) := s.sampleKeyDown k
    .next (s1.skipIf (!down))

/-- LD_K Vx (R145): the reported key into `V[x]`; with none reported, `pc` goes back to this instruction, which the next step
executes again. -/
def execLdK (x : RegIdx) (s : State) : Host.Outcome State Fault Refusal :=
  let (key, s1) := s.sampleNextKey
  .next (match key with
    | none => s1.rewindPc
    | some k => s1.setV x (byteOfKey k))

end Sys2Proof.Machine
end

