-- ==== Sys2Proof/Machine/Cycle.lean ====
section
/-! DEFINITION. The step of a running machine, 40_step_cycle.md R72: fetch, advance `pc`, decode, execute, age the timers. -/

namespace Sys2Proof.Machine

/-- The end of a step applied to what the execute phase answers (R76). -/
def finishOutcome : Host.Outcome State Fault Refusal → Host.Outcome State Fault Refusal
  | .next s => .next s.finish
  | .fault r => .fault r
  | .refused r => .refused r

/-- The body of R72's Step on a running machine. A fetch that raises takes the fault with no word (R73, R179). -/
def runCycle (s : State) : Host.Outcome State Fault Refusal :=
  match s.fetch s.pc.toNat with
  | .error a => .next (s.takeFault .outOfBounds none (some a))
  | .ok w => finishOutcome (exec (decodeWord w) s.advancePc)

/-- The state that runs the instruction of word `w` on its very next step: Running (a program is loaded from outside, log
entry 1), and `w` stored big-endian at `pc` (R48). A `pc` from which no fetch succeeds gives way to the entry point 0x200. -/
def placeWord (s : State) (w : Word) : State :=
  let s1 := { s with status := .running, pc := if s.pc.toNat ≤ 0xFFE then s.pc else 0x200 }
  s1.pokeBytes s1.pc.toNat [highByte w, lowByte w]

end Sys2Proof.Machine
end

