-- ==== Sys2Proof/Machine/Step.lean ====
section
/-! DEFINITION. The step (R72): the status checks come first (R176). A machine not loaded is refused (R78), a faulted one
reports its fault again (R79), a running one runs one cycle. -/

namespace Sys2Proof.Machine

/-- One `Step` transaction. The step that raises a fault answers the state with status Faulted(rec) (log entry 2). -/
def step (s : State) : Host.Outcome State Fault Refusal :=
  match s.status with
  | .unloaded => .refused .notLoaded
  | .faulted rec => .fault (.alreadyFaulted rec)
  | .running => runCycle s

/-- `s` with the opcode-table word `w` of `nbits` bits placed where `step` fetches next. -/
def State.withFetchWord (s : State) (nbits w : Nat) : State := placeWord s (tableWord nbits w)

end Sys2Proof.Machine
end

