-- ==== Sys2Proof/Machine/Listing.lean ====
section
/-! DEFINITION. How an instruction is written (30_encoding.md R67, R69): its mnemonic and operands, and the disassembly of a word. No
step uses this. -/

namespace Sys2Proof.Machine

/-- The mnemonic of an instruction, the name of its row of R62. -/
def mnemonicOf : Instr → String
  | .sys _ _ => "SYS"
  | .cls => "CLS"
  | .ret => "RET"
  | .jp _ => "JP"
  | .call _ => "CALL"
  | .se _ _ => "SE"
  | .sne _ _ => "SNE"
  | .seReg _ _ => "SE_REG"
  | .ld _ _ => "LD"
  | .add _ _ => "ADD"
  | .ldReg _ _ => "LD_REG"
  | .or _ _ => "OR"
  | .and _ _ => "AND"
  | .xor _ _ => "XOR"
  | .addReg _ _ => "ADD_REG"
  | .subReg _ _ => "SUB_REG"
  | .shr _ _ => "SHR"
  | .subn _ _ => "SUBN"
  | .shl _ _ => "SHL"
  | .sneReg _ _ => "SNE_REG"
  | .ldI _ => "LD_I"
  | .jpReg _ => "JP_REG"
  | .rnd _ _ => "RND"
  | .drw _ _ _ => "DRW"
  | .skp _ => "SKP"
  | .sknp _ => "SKNP"
  | .ldDt _ => "LD_DT"
  | .ldK _ => "LD_K"
  | .ldDtSet _ => "LD_DT_SET"
  | .ldStSet _ => "LD_ST_SET"
  | .addI _ => "ADD_I"
  | .ldF _ => "LD_F"
  | .ldB _ => "LD_B"
  | .ldIReg _ => "LD_I_REG"
  | .ldRegI _ => "LD_REG_I"

/-- A hexadecimal digit. -/
def hexDigit (b : BitVec 4) : String :=
  ["0", "1", "2", "3", "4", "5", "6", "7", "8", "9", "A", "B", "C", "D", "E", "F"].getD b.toNat ""

/-- A register operand, `V0` to `VF` (R67). -/
def regText (x : RegIdx) : String := "V" ++ hexDigit x

/-- An immediate byte in hexadecimal (R67). -/
def byteText (b : Byte) : String := "0x" ++ hexDigit (b.extractLsb' 4 4) ++ hexDigit (b.extractLsb' 0 4)

/-- A 12-bit address in hexadecimal (R67). -/
def addrText (a : Addr12) : String :=
  "0x" ++ hexDigit (a.extractLsb' 8 4) ++ hexDigit (a.extractLsb' 4 4) ++ hexDigit (a.extractLsb' 0 4)

/-- A count of rows in hexadecimal (R67). -/
def countText (n : Nibble) : String := "0x" ++ hexDigit n

/-- The operands of an instruction, in the order of R67. SHR and SHL leave out a `y` of 0, which is its default. A SYS prints its
12-bit low field, also when its top nibble is not 0 (R69). -/
def operandsOf : Instr → List String
  | .sys _ nnn | .jp nnn | .call nnn | .ldI nnn | .jpReg nnn => [addrText nnn]
  | .cls | .ret => []
  | .se x kk | .sne x kk | .ld x kk | .add x kk | .rnd x kk => [regText x, byteText kk]
  | .seReg x y | .sneReg x y | .ldReg x y | .or x y | .and x y | .xor x y | .addReg x y | .subReg x y | .subn x y =>
    [regText x, regText y]
  | .shr x y | .shl x y => if y = 0 then [regText x] else [regText x, regText y]
  | .drw x y n => [regText x, regText y, countText n]
  | .skp x | .sknp x | .ldDt x | .ldK x | .ldDtSet x | .ldStSet x | .addI x | .ldF x | .ldB x | .ldIReg x | .ldRegI x =>
    [regText x]

/-- One line of assembler text (R67): the mnemonic, and the operands separated by a comma and a space. -/
def instrText (i : Instr) : String :=
  match operandsOf i with
  | [] => mnemonicOf i
  | o :: os => os.foldl (fun t u => t ++ ", " ++ u) (mnemonicOf i ++ " " ++ o)

/-- The disassembly of a word (R69): every word has one (R64). -/
def disassemble (w : Word) : String := instrText (decodeWord w)

end Sys2Proof.Machine
end

