-- ==== Sys2Proof/Machine/Transactions.lean ====
section
/-! DEFINITION. The other transactions of the core's boundary (40_step_cycle.md R70, R82): New, Load, Readout, and the result a
Step reports to the host (R80). -/

namespace Sys2Proof.Machine

/-- `New` (70_reset_and_hazards.md R190): memory is the font and zeros, everything else 0, status Unloaded, and `pc` has no
value (log entry 4). -/
def State.new (cfg : Config) : State where
  status := .unloaded
  v := Vector.replicate 16 0
  i := 0
  pc := Config.pcBeforeLoad
  stack := Vector.replicate 16 0
  sp := 0
  dt := 0
  st := 0
  mem := []
  fb := Vector.replicate 256 0
  cfg := cfg
  draws := 0

/-- `ROM_BASE` (R7). -/
def romBase : Nat := 0x200

/-- `ROM_MAX` (R7). -/
def romMax : Nat := 3584

/-- What a `Load` gives the host. -/
inductive LoadResult where
  /-- The ROM is loaded (R191). -/
  | loaded (s : State)
  /-- The ROM is too large: the transaction fails with OutOfBounds and the machine stays as it was (R174, R192). -/
  | outOfBounds
  /-- No such host move: the machine is not Unloaded (R82, R192). -/
  | notAdmitted
  deriving DecidableEq, Repr

/-- `Load(rom)` (R191): the ROM to 0x200 on, `pc <- 0x200`, status Running; no other state changes. -/
def State.load (s : State) (rom : List Byte) : LoadResult :=
  match s.status with
  | .unloaded =>
    if rom.length > romMax then .outOfBounds
    else .loaded { s.pokeBytes romBase rom with pc := 0x200, status := .running }
  | .running | .faulted _ => .notAdmitted

/-- `Readout` (R155). It changes no state. -/
def State.readout (s : State) : Vector Byte 2048 := fbReadout s.fb

/-- The result of a `Step` (R80). -/
inductive StepResult where
  | ok
  | fault (rec : FaultRecord)
  | refusedNotLoaded
  deriving DecidableEq, Repr

/-- The result a `Step` on `s` reports (R72, R80): Fault(rec) both for the step that raises it and for every later one. A
refusal other than notLoaded does not occur; its arm is there for totality. -/
def State.stepResult (s : State) : StepResult :=
  match step s with
  | .next t =>
    match t.status with
    | .faulted rec => .fault rec
    | .running | .unloaded => .ok
  | .fault (.alreadyFaulted rec) => .fault rec
  | .refused _ => .refusedNotLoaded

end Sys2Proof.Machine
end

