-- ==== Sys2Proof/Safety.lean ====
section
/-! DEFINITION. The terms claims are made in: the rows of the opcode map (30_encoding.md R62), the footprint of an instruction
and the frame it leaves, the complete table of fault conditions (60_exceptions.md R176), what a sprite covers, and the
invariant of the machine (10_state.md R19, R22). -/

namespace Sys2Proof.Machine

/-! ### The opcode map -/

/-- One row of R62: the words `w` with `w AND mask = val` decode to `make w`. -/
structure OpcodeRow where
  mnemonic : String
  val : Word
  mask : Word
  make : Word → Instr

/-- Rows 2 to 35 of R62, in order, with the operand fields of R56. Row 1, SYS, is every word that matches none of them. -/
def opcodeRows : List OpcodeRow :=
  [⟨"CLS", 0x00E0, 0xFFFF, fun _ => .cls⟩,
   ⟨"RET", 0x00EE, 0xFFFF, fun _ => .ret⟩,
   ⟨"JP", 0x1000, 0xF000, fun w => .jp (nnnOf w)⟩,
   ⟨"CALL", 0x2000, 0xF000, fun w => .call (nnnOf w)⟩,
   ⟨"SE", 0x3000, 0xF000, fun w => .se (xOf w) (kkOf w)⟩,
   ⟨"SNE", 0x4000, 0xF000, fun w => .sne (xOf w) (kkOf w)⟩,
   ⟨"SE_REG", 0x5000, 0xF00F, fun w => .seReg (xOf w) (yOf w)⟩,
   ⟨"LD", 0x6000, 0xF000, fun w => .ld (xOf w) (kkOf w)⟩,
   ⟨"ADD", 0x7000, 0xF000, fun w => .add (xOf w) (kkOf w)⟩,
   ⟨"LD_REG", 0x8000, 0xF00F, fun w => .ldReg (xOf w) (yOf w)⟩,
   ⟨"OR", 0x8001, 0xF00F, fun w => .or (xOf w) (yOf w)⟩,
   ⟨"AND", 0x8002, 0xF00F, fun w => .and (xOf w) (yOf w)⟩,
   ⟨"XOR", 0x8003, 0xF00F, fun w => .xor (xOf w) (yOf w)⟩,
   ⟨"ADD_REG", 0x8004, 0xF00F, fun w => .addReg (xOf w) (yOf w)⟩,
   ⟨"SUB_REG", 0x8005, 0xF00F, fun w => .subReg (xOf w) (yOf w)⟩,
   ⟨"SHR", 0x8006, 0xF00F, fun w => .shr (xOf w) (yOf w)⟩,
   ⟨"SUBN", 0x8007, 0xF00F, fun w => .subn (xOf w) (yOf w)⟩] ++
  [⟨"SHL", 0x800E, 0xF00F, fun w => .shl (xOf w) (yOf w)⟩,
   ⟨"SNE_REG", 0x9000, 0xF00F, fun w => .sneReg (xOf w) (yOf w)⟩,
   ⟨"LD_I", 0xA000, 0xF000, fun w => .ldI (nnnOf w)⟩,
   ⟨"JP_REG", 0xB000, 0xF000, fun w => .jpReg (nnnOf w)⟩,
   ⟨"RND", 0xC000, 0xF000, fun w => .rnd (xOf w) (kkOf w)⟩,
   ⟨"DRW", 0xD000, 0xF000, fun w => .drw (xOf w) (yOf w) (nOf w)⟩,
   ⟨"SKP", 0xE09E, 0xF0FF, fun w => .skp (xOf w)⟩,
   ⟨"SKNP", 0xE0A1, 0xF0FF, fun w => .sknp (xOf w)⟩,
   ⟨"LD_DT", 0xF007, 0xF0FF, fun w => .ldDt (xOf w)⟩,
   ⟨"LD_K", 0xF00A, 0xF0FF, fun w => .ldK (xOf w)⟩,
   ⟨"LD_DT_SET", 0xF015, 0xF0FF, fun w => .ldDtSet (xOf w)⟩,
   ⟨"LD_ST_SET", 0xF018, 0xF0FF, fun w => .ldStSet (xOf w)⟩,
   ⟨"ADD_I", 0xF01E, 0xF0FF, fun w => .addI (xOf w)⟩,
   ⟨"LD_F", 0xF029, 0xF0FF, fun w => .ldF (xOf w)⟩,
   ⟨"LD_B", 0xF033, 0xF0FF, fun w => .ldB (xOf w)⟩,
   ⟨"LD_I_REG", 0xF055, 0xF0FF, fun w => .ldIReg (xOf w)⟩,
   ⟨"LD_REG_I", 0xF065, 0xF0FF, fun w => .ldRegI (xOf w)⟩]

/-! ### Frames -/

/-- The parts of the state that may change; what is not named here stays. -/
structure Parts where
  regs : List RegIdx := []
  index : Bool := false
  pc : Bool := false
  entries : List Nat := []
  sp : Bool := false
  dt : Bool := false
  st : Bool := false
  stored : List Nat := []
  fb : Bool := false
  status : Bool := false
  draws : Bool := false
  deriving DecidableEq, Repr

/-- `t` is `s` outside the parts named: every other register, `I`, `pc`, every other stack entry, `sp`, the timers, EVERY BYTE
of memory at an address not listed, the framebuffer, the status and the draw counter are as before; the configuration always
is. -/
structure Frame (p : Parts) (s t : State) : Prop where
  regs : ∀ r, r ∉ p.regs → t.getV r = s.getV r
  index : p.index = false → t.i = s.i
  pc : p.pc = false → t.pc = s.pc
  entries : ∀ k : Fin 16, k.val ∉ p.entries → t.stack[k] = s.stack[k]
  sp : p.sp = false → t.sp = s.sp
  dt : p.dt = false → t.dt = s.dt
  st : p.st = false → t.st = s.st
  stored : ∀ a, a ∉ p.stored → t.peek a = s.peek a
  fb : p.fb = false → t.fb = s.fb
  status : p.status = false → t.status = s.status
  draws : p.draws = false → t.draws = s.draws
  cfg : t.cfg = s.cfg

/-- The registers a store or load range of `n` registers covers: `V[0]` to `V[n - 1]`. -/
def regRange (n : Nat) : List RegIdx := (List.range n).map (BitVec.ofNat 4)

/-- What the execute phase of an instruction may write when it raises no fault, from the instruction rules (R17 for VF, R21 to
R26 for the special registers, R28 for the framebuffer, R40 for memory). The addresses stored to are computed from the state
the instruction runs in. -/
def footprint (i : Instr) (s : State) : Parts :=
  match i with
  | .sys _ _ => {}
  | .cls => { fb := true }
  | .ret => { pc := true, sp := true }
  | .jp _ => { pc := true }
  | .call _ => { pc := true, sp := true, entries := [s.sp.val] }
  | .se _ _ => { pc := true }
  | .sne _ _ => { pc := true }
  | .seReg _ _ => { pc := true }
  | .ld x _ => { regs := [x] }
  | .add x _ => { regs := [x] }
  | .ldReg x _ => { regs := [x] }
  | .or x _ => { regs := [x] }
  | .and x _ => { regs := [x] }
  | .xor x _ => { regs := [x] }
  | .addReg x _ => { regs := [x, vf] }
  | .subReg x _ => { regs := [x, vf] }
  | .shr x _ => { regs := [x, vf] }
  | .subn x _ => { regs := [x, vf] }
  | .shl x _ => { regs := [x, vf] }
  | .sneReg _ _ => { pc := true }
  | .ldI _ => { index := true }
  | .jpReg _ => { pc := true }
  | .rnd x _ => { regs := [x], draws := true }
  | .drw _ _ _ => { regs := [vf], fb := true }
  | .skp _ => { pc := true, draws := true }
  | .sknp _ => { pc := true, draws := true }
  | .ldDt x => { regs := [x] }
  | .ldK x => { regs := [x], pc := true, draws := true }
  | .ldDtSet _ => { dt := true }
  | .ldStSet _ => { st := true }
  | .addI _ => { index := true }
  | .ldF _ => { index := true }
  | .ldB _ => { stored := List.range' (s.effAddr 0) 3 }
  | .ldIReg x => { stored := List.range' (s.effAddr 0) (regCount x) }
  | .ldRegI x => { regs := regRange (regCount x) }

/-- The register an instruction names as its ordinary destination: its `x` field, or the range `V[0]` to `V[x]` of LD_REG_I
(R17). -/
def IsDestination (r : RegIdx) : Instr → Prop
  | .ld x _ | .add x _ | .ldReg x _ | .or x _ | .and x _ | .xor x _ => r = x
  | .addReg x _ | .subReg x _ | .shr x _ | .subn x _ | .shl x _ => r = x
  | .rnd x _ | .ldDt x | .ldK x => r = x
  | .ldRegI x => r.toNat ≤ x.toNat
  | .sys _ _ | .cls | .ret | .jp _ | .call _ | .jpReg _ => False
  | .se _ _ | .sne _ _ | .seReg _ _ | .sneReg _ _ | .skp _ | .sknp _ => False
  | .ldI _ | .drw _ _ _ | .ldDtSet _ | .ldStSet _ | .addI _ | .ldF _ | .ldB _ | .ldIReg _ => False

/-- The instructions that write VF as a side effect (R17). -/
def WritesFlag : Instr → Prop
  | .addReg _ _ | .subReg _ _ | .shr _ _ | .subn _ _ | .shl _ _ | .drw _ _ _ => True
  | .sys _ _ | .cls | .ret | .jp _ | .call _ | .jpReg _ => False
  | .se _ _ | .sne _ _ | .seReg _ _ | .sneReg _ _ | .skp _ | .sknp _ => False
  | .ld _ _ | .add _ _ | .ldReg _ _ | .or _ _ | .and _ _ | .xor _ _ => False
  | .rnd _ _ | .ldDt _ | .ldK _ | .ldRegI _ => False
  | .ldI _ | .ldDtSet _ | .ldStSet _ | .addI _ | .ldF _ | .ldB _ | .ldIReg _ => False

/-- The same change made to the next state, where there is one. -/
def mapNext (f : State → State) : Host.Outcome State Fault Refusal → Host.Outcome State Fault Refusal
  | .next s => .next (f s)
  | .fault r => .fault r
  | .refused r => .refused r

/-! ### Faults -/

/-- The complete table of R176: the kind and the info (R171 to R173) of the fault an instruction raises in its execute phase,
or none. -/
def faultOf (i : Instr) (s : State) : Option (FaultKind × Option Nat) :=
  match i with
  | .ret => if s.sp.val = 0 then some (.stackUnderflow, none) else none
  | .call _ => if s.sp.val = 16 then some (.stackOverflow, none) else none
  | .drw _ _ n =>
    if 0 < n.toNat ∧ s.i.toNat + n.toNat - 1 > 0xFFF then some (.outOfBounds, some (max s.i.toNat 0x1000)) else none
  | .ldB _ => if s.i.toNat + 2 > 0xFFF then some (.outOfBounds, some (max s.i.toNat 0x1000)) else none
  | .ldIReg x | .ldRegI x =>
    if s.i.toNat + x.toNat > 0xFFF then some (.outOfBounds, some (max s.i.toNat 0x1000)) else none
  | .skp x | .sknp x =>
    if (s.getV x).toNat > 15 then some (.outOfBounds, some (s.getV x).toNat) else none
  | .sys _ _ | .cls | .jp _ | .jpReg _ | .se _ _ | .sne _ _ | .seReg _ _ | .sneReg _ _ => none
  | .ld _ _ | .add _ _ | .ldReg _ _ | .or _ _ | .and _ _ | .xor _ _ | .addReg _ _ | .subReg _ _ => none
  | .shr _ _ | .subn _ _ | .shl _ _ | .rnd _ _ | .ldI _ | .addI _ | .ldF _ => none
  | .ldDt _ | .ldK _ | .ldDtSet _ | .ldStSet _ => none

/-- The state a fault of R178 leaves, from the state `s` of before the step: `s` with status Faulted and nothing else
changed. -/
def faultedFrom (s : State) (rec : FaultRecord) : State := { s with status := .faulted rec }

/-- What the execute phase leaves when it raises a fault: `s` is the state it ran in, whose `pc` is the address of the
instruction plus 2 (R74), and `w` the instruction's word. The record's `pc` is the instruction's address, and so is the `pc`
the machine is left with (R177, R179). -/
def raisedFrom (s : State) (w : Word) (kind : FaultKind) (info : Option Nat) : State :=
  faultedFrom { s with pc := s.pc - 2 } { kind := kind, pc := s.pc - 2, word := some w, info := info }

/-! ### Sprites -/

/-- Sprite `bytes` drawn at `(x, y)` has a set bit that lands on pixel `p`: bit 7 of a row is the leftmost, columns wrap modulo
64 within the row, rows wrap modulo 32 (R153). -/
def SpriteCovers (x y : Byte) (bytes : List Byte) (p : Pixel) : Prop :=
  ∃ r, ∃ hr : r < bytes.length, ∃ j < 8,
    bytes[r].getLsbD (7 - j) = true ∧ p.1.val = (x.toNat + j) % 64 ∧ p.2.val = (y.toNat + r) % 32

/-! ### The invariant -/

/-- What every step keeps: memory is in canonical form; unless no ROM is loaded, `pc` is at most 0x10FE; every occupied entry
of the return stack is at most 0x1000 (R19). That `sp` lies in 0..16 (R22) is its type. -/
structure Inv (s : State) : Prop where
  mem : Memory.wf s.cfg s.mem
  pc : s.status ≠ .unloaded → s.pc.toNat ≤ 0x10FE
  entries : ∀ k : Fin 16, k.val < s.sp.val → s.stack[k].toNat ≤ 0x1000

end Sys2Proof.Machine
end

