-- ==== Sys2Proof/Certificates/Slice0/Obligations.lean ====
section
/-! DEFINITION. The statements for the provers. In every statement about `exec`, the state `s` is the one the execute phase runs
in: its `pc` already holds the address of the instruction plus 2 (40_step_cycle.md R74). A docstring that names a decision D<n>
says which clause rests on a choice the spec marks as its own (92_eei_decisions.md). -/

open Sys2Proof Sys2Proof.Machine

/-! ### The step -/

/-- R72, R74, R76: on a running machine whose two bytes at `pc` decode to an instruction, a step is the execute phase of that
instruction at the state with `pc` advanced by 2, and then, unless the phase raised a fault, both timers one down with a floor
at 0. -/
def Obligations.StepRunsTheDecodedInstruction : Prop :=
  ∀ (s : State) (i : Instr), s.status = .running → s.pc.toNat ≤ 0xFFE →
    decodeBytes [s.peek s.pc.toNat, s.peek (s.pc.toNat + 1)] = .ok (i, []) →
    i.wf = true ∧
    step s =
      match exec i { s with pc := s.pc + 2 } with
      | .next t =>
        .next (match t.status with
          | .faulted _ => t
          | .running | .unloaded =>
            { t with dt := if t.dt = 0 then 0 else t.dt - 1, st := if t.st = 0 then 0 else t.st - 1 })
      | .fault r => .fault r
      | .refused r => .refused r

/-- R72, R75, R80: a step of a running machine always answers a next state, whatever its memory holds; the machine is then
running, and the step's result is Ok, or it has taken a fault, and the result is Fault with the record in the status. That a
faulting step answers a next state is the model's choice (log entry 2); the fault mechanism is the spec's decision D8. -/
def Obligations.RunningStepAlwaysAnswers : Prop :=
  ∀ s : State, s.status = .running →
    ∃ t, step s = .next t ∧
      ((t.status = .running ∧ s.stepResult = .ok) ∨ ∃ rec, t.status = .faulted rec ∧ s.stepResult = .fault rec)

/-- R78, R79: the status is checked first. A machine that is not loaded refuses the step; a faulted one reports the same record
again (decisions D19 and D8). Neither answers a next state, so nothing changes. -/
def Obligations.StatusIsCheckedFirst : Prop :=
  ∀ s : State,
    (s.status = .unloaded → step s = .refused .notLoaded ∧ s.stepResult = .refusedNotLoaded) ∧
    (∀ rec, s.status = .faulted rec → step s = .fault (.alreadyFaulted rec) ∧ s.stepResult = .fault rec)

/-- R48: the fetched word is `mem[pc] * 256 + mem[pc+1]`; the byte at the lower address supplies bits 15:8, among them the opcode
nibble and the `x` field. -/
def Obligations.FetchIsBigEndian : Prop :=
  ∀ s : State, s.pc.toNat ≤ 0xFFE →
    ∃ w, s.fetch s.pc.toNat = .ok w ∧
      w.toNat = (s.peek s.pc.toNat).toNat * 256 + (s.peek (s.pc.toNat + 1)).toNat ∧
      (opOf w).toNat = (s.peek s.pc.toNat).toNat / 16 ∧ (xOf w).toNat = (s.peek s.pc.toNat).toNat % 16

/-- R73, R171, R177, R179: with `pc` at 0xFFF or above the fetch raises OutOfBounds with the lowest out-of-range address of the
pair, the step changes nothing but the status, and the record holds `pc` and no word (decisions D8 and D9; that the step answers
a next state is log entry 2). An odd `pc` is fetched from like any other (decision D10): `pc` up to 0xFFE never faults. -/
def Obligations.FetchFaultsOutOfRange : Prop :=
  ∀ s : State,
    (s.pc.toNat ≤ 0xFFE → ∃ w, s.fetch s.pc.toNat = .ok w) ∧
    (0xFFF ≤ s.pc.toNat →
      s.fetch s.pc.toNat = .error (max s.pc.toNat 0x1000) ∧
      (s.status = .running →
        step s = .next (faultedFrom s
          { kind := .outOfBounds, pc := s.pc, word := none, info := some (max s.pc.toNat 0x1000) })))

/-- R76, R141, R142, R196: a step that completes without a fault takes each timer one down, with a floor at 0, from the value the
execute phase left: the value `LD_DT_SET` or `LD_ST_SET` wrote in this very step, and otherwise the value before the step. A step
that takes a fault leaves both as they were (decision D8). -/
def Obligations.TimersAgeOncePerCleanStep : Prop :=
  ∀ (s t : State) (w : Word), s.status = .running → s.fetch s.pc.toNat = .ok w → step s = .next t →
    (t.status = .running →
      t.dt.toNat = (match decodeWord w with | .ldDtSet x => (s.getV x).toNat | _ => s.dt.toNat) - 1 ∧
      t.st.toNat = (match decodeWord w with | .ldStSet x => (s.getV x).toNat | _ => s.st.toNat) - 1) ∧
    (t.status ≠ .running → t.dt = s.dt ∧ t.st = s.st)

/-! ### Encoding -/

/-- R55, R62, R69: for EVERY well-formed instruction, with every value of every operand, decoding its word gives it back, and so
does decoding its two bytes, leaving the bytes after them. -/
def Obligations.DecodeOfEncode : Prop :=
  ∀ i : Instr, i.wf = true →
    decodeWord (encode i) = i ∧ ∀ rest, decodeBytes (encodeBytes i ++ rest) = .ok (i, rest)

/-- R59, R64, R69: every one of the 65536 words decodes to a well-formed instruction, and encoding it gives the word back. -/
def Obligations.EncodeOfDecode : Prop :=
  ∀ w : Word, (decodeWord w).wf = true ∧ encode (decodeWord w) = w

/-- R62: the opcode map. A word that matches a row's bits under its mask decodes to the row's operation with the fields of R56;
no word matches two rows of the 34; and a word that matches none of them decodes to SYS with its low twelve bits. -/
def Obligations.OpcodeMapIsDecoded : Prop :=
  (∀ row ∈ opcodeRows, ∀ w : Word, w &&& row.mask = row.val → decodeWord w = row.make w) ∧
  (∀ r1 ∈ opcodeRows, ∀ r2 ∈ opcodeRows, ∀ w : Word,
    w &&& r1.mask = r1.val → w &&& r2.mask = r2.val → r1.mnemonic = r2.mnemonic) ∧
  (∀ w : Word, (∀ row ∈ opcodeRows, w &&& row.mask ≠ row.val) → decodeWord w = .sys (opOf w) (nnnOf w))

/-- R67, R69 (decision D20): the disassembly of a word of a row begins with the row's mnemonic, and after it stands nothing or a
space and the operands; the disassembly of a word of no row is SYS with its full 12-bit low field, whatever its top nibble. How
the operands and that field are printed is the model's choice among the forms of R67 (log entry 15). -/
def Obligations.DisassemblyNamesTheRow : Prop :=
  ∀ w : Word,
    (∀ row ∈ opcodeRows, w &&& row.mask = row.val →
      mnemonicOf (decodeWord w) = row.mnemonic ∧
      (disassemble w = row.mnemonic ∨ ∃ operands, disassemble w = row.mnemonic ++ " " ++ operands)) ∧
    ((∀ row ∈ opcodeRows, w &&& row.mask ≠ row.val) → disassemble w = "SYS " ++ addrText (nnnOf w))

/-- Words of 95_test_vectors.md and what they decode to (§2.2 to §2.8, and 0xD125 of program P4), one or more for every family of
R60, the top nibble: a sanity statement. That the low nibble of the 5 and 9 families must be 0 is decision D16. -/
def Obligations.SampleWordsDecode : Prop :=
  decodeWord 0x00E0 = .cls ∧ decodeWord 0x00EE = .ret ∧ decodeWord 0x00E1 = .sys 0x0 0x0E1 ∧
  decodeWord 0x1ABC = .jp 0xABC ∧ decodeWord 0x2300 = .call 0x300 ∧ decodeWord 0x3105 = .se 1 0x05 ∧
  decodeWord 0x4105 = .sne 1 0x05 ∧ decodeWord 0x5120 = .seReg 1 2 ∧ decodeWord 0x5121 = .sys 0x5 0x121 ∧
  decodeWord 0x6AFF = .ld 0xA 0xFF ∧ decodeWord 0x7101 = .add 1 0x01 ∧ decodeWord 0x8124 = .addReg 1 2 ∧
  decodeWord 0x8008 = .sys 0x8 0x008 ∧ decodeWord 0x812E = .shl 1 2 ∧ decodeWord 0x9AB0 = .sneReg 0xA 0xB ∧
  decodeWord 0x9AB5 = .sys 0x9 0xAB5 ∧ decodeWord 0xA123 = .ldI 0x123 ∧ decodeWord 0xB123 = .jpReg 0x123 ∧
  decodeWord 0xC20F = .rnd 2 0x0F ∧ decodeWord 0xD125 = .drw 1 2 5 ∧ decodeWord 0xE19E = .skp 1 ∧
  decodeWord 0xE19F = .sys 0xE 0x19F ∧ decodeWord 0xF165 = .ldRegI 1 ∧ decodeWord 0xFFFF = .sys 0xF 0xFFF

/-! ### Memory -/

/-- R42, R43: MemWrite at an address in range stores the byte there and nowhere else and changes nothing else, and MemRead gives
it back; at an address above 0xFFF both raise OutOfBounds with that address (decision D9). -/
def Obligations.MemoryReadsWhatWasWritten : Prop :=
  ∀ (s : State) (a : Nat) (b : Byte),
    (a ≤ 0xFFF → ∃ t, s.memWrite a b = .ok t ∧ t.memRead a = .ok b ∧
      (∀ c, c ≠ a → t.memRead c = s.memRead c) ∧ Frame { stored := [a] } s t) ∧
    (a > 0xFFF → s.memWrite a b = .error a ∧ s.memRead a = .error a)

/-- The memory's canonical form (the model's own): a store inside the address space keeps it, and two memories in that form that
read the same at every address are the same data. -/
def Obligations.MemoryFormIsCanonical : Prop :=
  (∀ (s : State) (a : Nat) (b : Byte), Memory.wf s.cfg s.mem → a ≤ 0xFFF → Memory.wf (s.poke a b).cfg (s.poke a b).mem) ∧
  (∀ (cfg : Config) (m1 m2 : Memory), Memory.wf cfg m1 → Memory.wf cfg m2 →
    (∀ a, Memory.read cfg m1 a = Memory.read cfg m2 a) → m1 = m2)

/-- R44: the check before an access of `n` bytes from `base` passes exactly when every address is in range, and otherwise names
the LOWEST address of the range that is not (decision D9). -/
def Obligations.RangeCheckNamesLowestAddress : Prop :=
  ∀ base n : Nat,
    (rangeFault base n = none ↔ ∀ k < n, base + k ≤ 0xFFF) ∧
    (∀ a, rangeFault base n = some a ↔
      (base ≤ a ∧ a < base + n ∧ a > 0xFFF ∧ ∀ b, base ≤ b → b < a → b ≤ 0xFFF))

/-- R54, R197: what LD_I_REG or LD_B stores in a step (R134, R133) is what a fetch of the next step reads, in either byte of its
word: every register stored and each of the three digits, as the high byte of the word at its own address and as the low byte of
the word one address below. -/
def Obligations.StoresAreSeenByTheNextFetch : Prop :=
  ∀ (s t : State) (x : RegIdx), s.status = .running → step s = .next t → t.status = .running →
    (s.fetch s.pc.toNat = .ok (packXKK 0xF#4 x 0x55#8) →
      ∀ k : RegIdx, k.toNat ≤ x.toNat →
        (∀ w, t.fetch (s.i.toNat + k.toNat) = .ok w → highByte w = s.getV k) ∧
        (∀ a w, a + 1 = s.i.toNat + k.toNat → t.fetch a = .ok w → lowByte w = s.getV k)) ∧
    (s.fetch s.pc.toNat = .ok (packXKK 0xF#4 x 0x33#8) →
      (∀ w, t.fetch s.i.toNat = .ok w → (highByte w).toNat = (s.getV x).toNat / 100) ∧
      (∀ a w, a + 1 = s.i.toNat → t.fetch a = .ok w → (lowByte w).toNat = (s.getV x).toNat / 100) ∧
      (∀ w, t.fetch (s.i.toNat + 1) = .ok w → (highByte w).toNat = (s.getV x).toNat / 10 % 10) ∧
      (∀ w, t.fetch s.i.toNat = .ok w → (lowByte w).toNat = (s.getV x).toNat / 10 % 10) ∧
      (∀ w, t.fetch (s.i.toNat + 2) = .ok w → (highByte w).toNat = (s.getV x).toNat % 10) ∧
      (∀ w, t.fetch (s.i.toNat + 1) = .ok w → (lowByte w).toNat = (s.getV x).toNat % 10))

/-! ### Invariant -/

/-- R19, R22: every step keeps the invariant, from every state that has it. -/
def Obligations.StepKeepsInvariant : Prop :=
  ∀ s t : State, Inv s → step s = .next t → Inv t

/-- R19, R30: the state after reset has the invariant, and so has the machine after New, whatever its configuration. -/
def Obligations.ResetMeetsInvariant : Prop :=
  Inv State.reset ∧ ∀ cfg, Inv (State.new cfg)

/-! ### Faults -/

/-- R176 with R171 to R173: the fault conditions of the table are complete. From a running state, the execute phase of any
instruction raises exactly the fault of the table, with its kind and info, and leaves the state of before the step with status
Faulted (R177, R178); where the table has none, the machine is still running. The conditions and the record are the spec's
decisions D7, D8, D9 and D14; that the fault is a next state is log entry 2. -/
def Obligations.FaultTableIsComplete : Prop :=
  ∀ (i : Instr) (s : State), s.status = .running →
    ∃ t, exec i s = .next t ∧
      match faultOf i s with
      | some (kind, info) => t = raisedFrom s (encode i) kind info
      | none => t.status = .running

/-- R77, R79, R177, R178, R179: a step that takes a fault changes nothing but the status, the record's `pc` is the address fetched
from and its word the word fetched, or none when the fetch itself failed; and every later step reports that record (decision D8;
log entry 2). -/
def Obligations.FaultsArePreciseAndSticky : Prop :=
  ∀ (s t : State) (rec : FaultRecord), s.status = .running → step s = .next t → t.status = .faulted rec →
    t = faultedFrom s rec ∧ rec.pc = s.pc ∧
    (∀ w, s.fetch s.pc.toNat = .ok w → rec.word = some w) ∧
    (∀ a, s.fetch s.pc.toNat = .error a → rec.word = none ∧ rec.kind = .outOfBounds ∧ rec.info = some a) ∧
    step t = .fault (.alreadyFaulted rec)

/-! ### Whole-machine rules -/

/-- R17: VF changes only through an instruction that writes it as a flag, or that names it as its ordinary destination. -/
def Obligations.OnlyFlagWritersChangeVf : Prop :=
  ∀ (i : Instr) (s t : State), exec i s = .next t → t.getV vf ≠ s.getV vf → WritesFlag i ∨ IsDestination vf i

/-- R16 to R28, R40: the frame of EVERY instruction. From a running state, where the execute phase raises no fault it changes
nothing outside the instruction's footprint: no other register, special register, stack entry, timer, byte of memory or
framebuffer byte. -/
def Obligations.FrameOfEveryInstruction : Prop :=
  ∀ (i : Instr) (s t : State), s.status = .running → exec i s = .next t → t.status = .running →
    Frame (footprint i s) s t

/-- R21, R22, R23, R24, R26, R28, R40: an instruction that does not touch memory, the framebuffer, the return stack, DT, ST or I does
not depend on it. Only DRW, LD_B, LD_I_REG and LD_REG_I touch memory; only CLS and DRW the framebuffer; only CALL and RET the
stack; only LD_DT and LD_DT_SET DT, and LD_DT_SET does not read it; only LD_ST_SET ST, and no instruction reads it; only LD_I,
LD_F, ADD_I, DRW, LD_B, LD_I_REG and LD_REG_I touch I. Every other instruction does the same whatever that part holds, and leaves
it as it is. -/
def Obligations.UntouchedStateIsIrrelevant : Prop :=
  ∀ (i : Instr) (s : State),
    ((∀ x y n, i ≠ .drw x y n) → (∀ x, i ≠ .ldB x) → (∀ x, i ≠ .ldIReg x) → (∀ x, i ≠ .ldRegI x) →
      ∀ m, exec i { s with mem := m } = mapNext (fun t => { t with mem := m }) (exec i s)) ∧
    (i ≠ .cls → (∀ x y n, i ≠ .drw x y n) →
      ∀ f, exec i { s with fb := f } = mapNext (fun t => { t with fb := f }) (exec i s)) ∧
    (i ≠ .ret → (∀ nnn, i ≠ .call nnn) →
      ∀ k p, exec i { s with stack := k, sp := p } = mapNext (fun t => { t with stack := k, sp := p }) (exec i s)) ∧
    ((∀ x, i ≠ .ldDt x) → (∀ x, i ≠ .ldDtSet x) →
      ∀ b, exec i { s with dt := b } = mapNext (fun t => { t with dt := b }) (exec i s)) ∧
    (∀ x b, i = .ldDtSet x → exec i { s with dt := b } = exec i s) ∧
    ((∀ x, i ≠ .ldStSet x) →
      ∀ b, exec i { s with st := b } = mapNext (fun t => { t with st := b }) (exec i s)) ∧
    (∀ x b, i = .ldStSet x → exec i { s with st := b } = exec i s) ∧
    ((∀ nnn, i ≠ .ldI nnn) → (∀ x, i ≠ .ldF x) → (∀ x, i ≠ .addI x) → (∀ x y n, i ≠ .drw x y n) → (∀ x, i ≠ .ldB x) →
      (∀ x, i ≠ .ldIReg x) → (∀ x, i ≠ .ldRegI x) →
      ∀ k, exec i { s with i := k } = mapNext (fun t => { t with i := k }) (exec i s))

/-- R71, R121, R143 to R145: an instruction takes at most one sample of an input port, and none but RND, SKP, SKNP and LD_K takes
any; RND and LD_K always take one, whatever their operands. -/
def Obligations.AtMostOneSample : Prop :=
  ∀ (i : Instr) (s t : State), exec i s = .next t →
    t.draws ≤ s.draws + 1 ∧
    (t.draws ≠ s.draws → (∃ x kk, i = .rnd x kk) ∨ (∃ x, i = .skp x) ∨ (∃ x, i = .sknp x) ∨ ∃ x, i = .ldK x) ∧
    ((∃ x kk, i = .rnd x kk) ∨ (∃ x, i = .ldK x) → t.draws = s.draws + 1)

/-! ### System and control transfer -/

/-- R90: SYS is a no-op, for `0nnn` and for every unrecognised word: the execute phase completes and changes nothing, and the step
advances `pc` by 2, ages the timers and does nothing else. -/
def Obligations.SysDoesNothing : Prop :=
  (∀ nnn : Addr12, nnn ≠ 0x0E0 → nnn ≠ 0x0EE → decodeWord (packNNN 0x0#4 nnn) = .sys 0x0 nnn) ∧
  (∀ op nnn s, exec (.sys op nnn) s = .next s) ∧
  (∀ (s : State) (w : Word) (op : Nibble) (nnn : Addr12), s.status = .running → s.fetch s.pc.toNat = .ok w →
    decodeWord w = .sys op nnn →
    ∃ t, step s = .next t ∧ t.pc = s.pc + 2 ∧ t.dt.toNat = s.dt.toNat - 1 ∧ t.st.toNat = s.st.toNat - 1 ∧
      Frame { pc := true, dt := true, st := true } s t)

/-- R92: JP sets `pc` to the zero-extended 12-bit target, odd or even, and changes nothing else; a target of 0xFFF makes the next
fetch fault; the step of a jump to the instruction's own address leaves everything as it was but the timers, which age. -/
def Obligations.JumpSetsPc : Prop :=
  ∀ (nnn : Addr12) (s : State), decodeWord (packNNN 0x1#4 nnn) = .jp nnn ∧
    (∃ t, exec (.jp nnn) s = .next t ∧ t.pc.toNat = nnn.toNat ∧ Frame { pc := true } s t ∧
      (nnn = 0xFFF → t.fetch t.pc.toNat = .error 0x1000)) ∧
    (s.status = .running → s.fetch s.pc.toNat = .ok (packNNN 0x1#4 nnn) → s.pc.toNat = nnn.toNat →
      ∃ t, step s = .next t ∧ t.pc = s.pc ∧ t.dt.toNat = s.dt.toNat - 1 ∧ t.st.toNat = s.st.toNat - 1 ∧
        Frame { dt := true, st := true } s t)

/-- R94: JP_REG sets `pc` to the exact sum of its 12-bit base and V0 (V0 whatever bits 11:8 hold), with no reduction to 12 bits
(decision D11), and changes nothing else; a target of 0xFFF or more makes the next fetch fault. -/
def Obligations.JumpAddsV0 : Prop :=
  ∀ (nnn : Addr12) (s : State), decodeWord (packNNN 0xB#4 nnn) = .jpReg nnn ∧
    ∃ t, exec (.jpReg nnn) s = .next t ∧ t.pc.toNat = nnn.toNat + (s.getV 0).toNat ∧ Frame { pc := true } s t ∧
      (0xFFF ≤ nnn.toNat + (s.getV 0).toNat → t.fetch t.pc.toNat = .error (max t.pc.toNat 0x1000))

/-- R93, R172: CALL pushes `pc`, which holds the address after it, and jumps, when fewer than 16 calls are outstanding; at
`sp = 16` it raises StackOverflow (decisions D6, D7, D8; log entry 2). -/
def Obligations.CallPushesAndJumps : Prop :=
  ∀ (nnn : Addr12) (s : State), decodeWord (packNNN 0x2#4 nnn) = .call nnn ∧
    (∀ h : s.sp.val < 16, ∃ t, exec (.call nnn) s = .next t ∧ t.stack[s.sp.val] = s.pc ∧ t.sp.val = s.sp.val + 1 ∧
      t.pc.toNat = nnn.toNat ∧ Frame { pc := true, sp := true, entries := [s.sp.val] } s t) ∧
    (s.sp.val = 16 → exec (.call nnn) s = .next (raisedFrom s (packNNN 0x2#4 nnn) .stackOverflow none))

/-- R91, R173: RET takes the last pushed address into `pc` and leaves its entry as it is; at `sp = 0` it raises StackUnderflow
(decisions D6, D7, D8, D25; log entry 2). -/
def Obligations.ReturnPopsIntoPc : Prop :=
  ∀ s : State, decodeWord 0x00EE = .ret ∧
    (∀ h : 0 < s.sp.val, ∃ t, exec .ret s = .next t ∧ t.pc = s.stack[s.sp.val - 1] ∧ t.sp.val = s.sp.val - 1 ∧
      Frame { pc := true, sp := true } s t) ∧
    (s.sp.val = 0 → exec .ret s = .next (raisedFrom s 0x00EE .stackUnderflow none))

/-- R91, R93 (the source's property E4): a CALL and then a RET with the stack as the CALL left it resumes after the CALL, with `sp`
as before it. -/
def Obligations.ReturnUndoesCall : Prop :=
  ∀ (nnn : Addr12) (s : State), s.sp.val < 16 →
    ∃ t, exec (.call nnn) s = .next t ∧
      ∀ u : State, u.sp = t.sp → u.stack = t.stack → ∃ r, exec .ret u = .next r ∧ r.pc = s.pc ∧ r.sp = s.sp

/-! ### Skips -/

/-- R100, R101: SE and SNE add 2 to the advanced `pc` when the register equals, or differs from, the immediate; nothing else
changes. A skip taken from 0xFFC, where the advanced `pc` is 0xFFE, ends at 0x1000, from which the next fetch faults. -/
def Obligations.SkipsCompareImmediate : Prop :=
  ∀ (x : RegIdx) (kk : Byte) (s : State),
    decodeWord (packXKK 0x3#4 x kk) = .se x kk ∧ decodeWord (packXKK 0x4#4 x kk) = .sne x kk ∧
    (∃ t, exec (.se x kk) s = .next t ∧ t.pc = (if s.getV x = kk then s.pc + 2 else s.pc) ∧ Frame { pc := true } s t ∧
      (s.pc = 0xFFE → s.getV x = kk → t.fetch t.pc.toNat = .error 0x1000)) ∧
    (∃ t, exec (.sne x kk) s = .next t ∧ t.pc = (if s.getV x = kk then s.pc else s.pc + 2) ∧ Frame { pc := true } s t ∧
      (s.pc = 0xFFE → s.getV x ≠ kk → t.fetch t.pc.toNat = .error 0x1000))

/-- R102, R103: SE_REG and SNE_REG add 2 to the advanced `pc` when the registers are equal, or differ; nothing else changes; the
words `5xyN` and `9xyN` with `N` not 0 are SYS (decision D16). -/
def Obligations.SkipsCompareRegisters : Prop :=
  ∀ (x y : RegIdx) (s : State),
    decodeWord (packXYN 0x5#4 x y 0x0#4) = .seReg x y ∧ decodeWord (packXYN 0x9#4 x y 0x0#4) = .sneReg x y ∧
    (∀ n : Nibble, n ≠ 0 → ∃ nnn, decodeWord (packXYN 0x5#4 x y n) = .sys 0x5 nnn) ∧
    (∀ n : Nibble, n ≠ 0 → ∃ nnn, decodeWord (packXYN 0x9#4 x y n) = .sys 0x9 nnn) ∧
    (∃ t, exec (.seReg x y) s = .next t ∧ t.pc = (if s.getV x = s.getV y then s.pc + 2 else s.pc) ∧
      Frame { pc := true } s t) ∧
    (∃ t, exec (.sneReg x y) s = .next t ∧ t.pc = (if s.getV x = s.getV y then s.pc else s.pc + 2) ∧
      Frame { pc := true } s t)

/-! ### Register loads and arithmetic -/

/-- R110, R112: LD puts its immediate, LD_REG the other register's value, into `Vx`; nothing else changes. -/
def Obligations.LoadsSetTheRegister : Prop :=
  ∀ (x y : RegIdx) (kk : Byte) (s : State),
    decodeWord (packXKK 0x6#4 x kk) = .ld x kk ∧ decodeWord (packXYN 0x8#4 x y 0x0#4) = .ldReg x y ∧
    (∃ t, exec (.ld x kk) s = .next t ∧ t.getV x = kk ∧ Frame { regs := [x] } s t) ∧
    (∃ t, exec (.ldReg x y) s = .next t ∧ t.getV x = s.getV y ∧ Frame { regs := [x] } s t)

/-- R111: ADD wraps modulo 256 and writes no flag: VF changes only when `x = 0xF`, where it receives the sum. -/
def Obligations.AddImmediateWrapsWithoutFlag : Prop :=
  ∀ (x : RegIdx) (kk : Byte) (s : State), decodeWord (packXKK 0x7#4 x kk) = .add x kk ∧
    ∃ t, exec (.add x kk) s = .next t ∧ (t.getV x).toNat = ((s.getV x).toNat + kk.toNat) % 256 ∧
      (x ≠ vf → t.getV vf = s.getV vf) ∧ Frame { regs := [x] } s t

/-- R113, R114, R115: OR, AND and XOR, bit by bit, into `Vx`; VF is not written unless `x = 0xF`; nothing else changes. -/
def Obligations.LogicIsBitwise : Prop :=
  ∀ (x y : RegIdx) (s : State),
    decodeWord (packXYN 0x8#4 x y 0x1#4) = .or x y ∧ decodeWord (packXYN 0x8#4 x y 0x2#4) = .and x y ∧
    decodeWord (packXYN 0x8#4 x y 0x3#4) = .xor x y ∧
    (∃ t, exec (.or x y) s = .next t ∧
      (∀ k < 8, (t.getV x).getLsbD k = ((s.getV x).getLsbD k || (s.getV y).getLsbD k)) ∧ Frame { regs := [x] } s t) ∧
    (∃ t, exec (.and x y) s = .next t ∧
      (∀ k < 8, (t.getV x).getLsbD k = ((s.getV x).getLsbD k && (s.getV y).getLsbD k)) ∧ Frame { regs := [x] } s t) ∧
    (∃ t, exec (.xor x y) s = .next t ∧
      (∀ k < 8, (t.getV x).getLsbD k = ((s.getV x).getLsbD k ^^ (s.getV y).getLsbD k)) ∧ Frame { regs := [x] } s t)

/-- R116, R122: ADD_REG: the sum modulo 256 into `Vx`, the carry into VF, always written; with `x = 0xF` the carry is what VF ends
with (the write order is the spec's decision D5). -/
def Obligations.AddRegistersSetsCarry : Prop :=
  ∀ (x y : RegIdx) (s : State), decodeWord (packXYN 0x8#4 x y 0x4#4) = .addReg x y ∧
    ∃ t, exec (.addReg x y) s = .next t ∧
      (x ≠ vf → (t.getV x).toNat = ((s.getV x).toNat + (s.getV y).toNat) % 256) ∧
      t.getV vf = (if (s.getV x).toNat + (s.getV y).toNat ≥ 256 then 1 else 0) ∧ Frame { regs := [x, vf] } s t

/-- R117, R122: SUB_REG: the difference modulo 256 into `Vx`, and 1 into VF when no borrow occurs, equality included, else 0; with
`x = 0xF` the flag is what VF ends with (decision D5). -/
def Obligations.SubtractSetsNoBorrow : Prop :=
  ∀ (x y : RegIdx) (s : State), decodeWord (packXYN 0x8#4 x y 0x5#4) = .subReg x y ∧
    ∃ t, exec (.subReg x y) s = .next t ∧
      (x ≠ vf → (t.getV x).toNat = ((s.getV x).toNat + 256 - (s.getV y).toNat) % 256) ∧
      t.getV vf = (if (s.getV x).toNat ≥ (s.getV y).toNat then 1 else 0) ∧ Frame { regs := [x, vf] } s t

/-- R118: SHR: the bit shifted out into VF and `Vx` shifted right by one, whatever `y` is; with `x = 0xF`, VF ends as 0 (decision
D5). -/
def Obligations.ShiftRightByOne : Prop :=
  ∀ (x y : RegIdx) (s : State), decodeWord (packXYN 0x8#4 x y 0x6#4) = .shr x y ∧
    ∃ t, exec (.shr x y) s = .next t ∧
      (x ≠ vf → (t.getV x).toNat = (s.getV x).toNat / 2 ∧ (t.getV vf).toNat = (s.getV x).toNat % 2) ∧
      (x = vf → t.getV vf = 0) ∧ Frame { regs := [x, vf] } s t

/-- R120: SHL: the bit shifted out into VF and `Vx` shifted left by one modulo 256, whatever `y` is; with `x = 0xF`, VF ends as 2
when its bit 7 was 1 and as 0 otherwise (decision D5). -/
def Obligations.ShiftLeftByOne : Prop :=
  ∀ (x y : RegIdx) (s : State), decodeWord (packXYN 0x8#4 x y 0xE#4) = .shl x y ∧
    ∃ t, exec (.shl x y) s = .next t ∧
      (x ≠ vf → (t.getV x).toNat = (s.getV x).toNat * 2 % 256 ∧ (t.getV vf).toNat = (s.getV x).toNat / 128) ∧
      (x = vf → t.getV vf = (if (s.getV vf).toNat ≥ 128 then 2 else 0)) ∧ Frame { regs := [x, vf] } s t

/-- R119: SUBN for every setting of its two parameters (decisions D3, D4; the write order with `x = 0xF` is decision D5):
`Vy - Vx` modulo 256 into `Vx`; then, on the old values, VF is 1 when the strict condition holds, and otherwise is kept, or
cleared, as `SUBN_VF_ELSE` says; what is kept with `x = 0xF` is the difference. -/
def Obligations.SubtractReverseFlagsStrictly : Prop :=
  ∀ (x y : RegIdx) (s : State), decodeWord (packXYN 0x8#4 x y 0x7#4) = .subn x y ∧
    ∃ t, exec (.subn x y) s = .next t ∧
      (x ≠ vf → (t.getV x).toNat = ((s.getV y).toNat + 256 - (s.getV x).toNat) % 256) ∧
      t.getV vf =
        (if (match s.cfg.subnFlagCond with
            | .vyGtVx => decide ((s.getV y).toNat > (s.getV x).toNat)
            | .vxGtVy => decide ((s.getV x).toNat > (s.getV y).toNat)) then 1
          else match s.cfg.subnVfElse with
            | .clear => 0
            | .keep => if x = vf then s.getV y - s.getV x else s.getV vf) ∧
      Frame { regs := [x, vf] } s t

/-- R121, R71: RND masks the sampled byte, whatever it is, with its immediate, and takes exactly one sample, also when the mask is
0 (the free input is the spec's decision D23; the sample is a free value, log entry 3). -/
def Obligations.RandomIsMasked : Prop :=
  ∀ (x : RegIdx) (kk : Byte) (s : State), decodeWord (packXKK 0xC#4 x kk) = .rnd x kk ∧
    ∃ t, exec (.rnd x kk) s = .next t ∧
      (∀ k < 8, (t.getV x).getLsbD k = (kk.getLsbD k && (Config.randomByte s.draws).getLsbD k)) ∧
      t.getV x &&& ~~~kk = 0 ∧ t.draws = s.draws + 1 ∧ Frame { regs := [x], draws := true } s t

/-! ### Index register and memory -/

/-- R130: LD_I: `I` is the zero-extended 12-bit address, its upper 4 bits 0; nothing else changes. -/
def Obligations.LoadIndexImmediate : Prop :=
  ∀ (nnn : Addr12) (s : State), decodeWord (packNNN 0xA#4 nnn) = .ldI nnn ∧
    ∃ t, exec (.ldI nnn) s = .next t ∧ t.i.toNat = nnn.toNat ∧ Frame { index := true } s t

/-- R131: ADD_I: `I` plus the register, modulo 65536 (the wrap is the spec's decision D12), with no flag: no register changes. -/
def Obligations.AddIndexWrapsWithoutFlag : Prop :=
  ∀ (x : RegIdx) (s : State), decodeWord (packXKK 0xF#4 x 0x1E#8) = .addI x ∧
    ∃ t, exec (.addI x) s = .next t ∧ t.i.toNat = (s.i.toNat + (s.getV x).toNat) % 65536 ∧ Frame { index := true } s t

/-- R132, R46: LD_F: `I` is 5 times the full 8-bit value (decision D13), `FONT_BASE` not added; so with `FONT_BASE = 0` (decision D1)
and memory as New left it, the five bytes from `I` on are the digit's glyph (the source's property E9). -/
def Obligations.FontAddressIsFiveTimes : Prop :=
  ∀ (x : RegIdx) (s : State), decodeWord (packXKK 0xF#4 x 0x29#8) = .ldF x ∧
    ∃ t, exec (.ldF x) s = .next t ∧ t.i.toNat = (s.getV x).toNat * 5 ∧ Frame { index := true } s t ∧
      (s.cfg.fontBase = 0 → s.mem = [] → ∀ h : (s.getV x).toNat < 16, ∀ r : Fin 5,
        t.peek (t.i.toNat + r.val) = s.cfg.font[(s.getV x).toNat][r.val])

/-- R133, R44: LD_B: the hundreds, tens and ones digits of `Vx` at `I`, `I + 1`, `I + 2` when all three are in range, and nothing
else changes, `I` included; otherwise OutOfBounds with the lowest out-of-range address, and nothing is written (decision D9; log
entry 2). -/
def Obligations.DecimalDigitsAreStored : Prop :=
  ∀ (x : RegIdx) (s : State), decodeWord (packXKK 0xF#4 x 0x33#8) = .ldB x ∧
    (s.i.toNat + 2 ≤ 0xFFF → ∃ t, exec (.ldB x) s = .next t ∧
      (t.peek s.i.toNat).toNat = (s.getV x).toNat / 100 ∧
      (t.peek (s.i.toNat + 1)).toNat = (s.getV x).toNat / 10 % 10 ∧
      (t.peek (s.i.toNat + 2)).toNat = (s.getV x).toNat % 10 ∧
      Frame { stored := [s.i.toNat, s.i.toNat + 1, s.i.toNat + 2] } s t) ∧
    (s.i.toNat + 2 > 0xFFF →
      exec (.ldB x) s = .next (raisedFrom s (packXKK 0xF#4 x 0x33#8) .outOfBounds (some (max s.i.toNat 0x1000))))

/-- R134, R44, R47: LD_I_REG: `V0` to `Vx` inclusive at `I` on, `V0` lowest, when all are in range, and nothing else changes, `I`
included (decision D17); otherwise OutOfBounds and nothing is written (decision D9; log entry 2). -/
def Obligations.RegistersAreStored : Prop :=
  ∀ (x : RegIdx) (s : State), decodeWord (packXKK 0xF#4 x 0x55#8) = .ldIReg x ∧
    (s.i.toNat + x.toNat ≤ 0xFFF → ∃ t, exec (.ldIReg x) s = .next t ∧
      (∀ k : RegIdx, k.toNat ≤ x.toNat → t.peek (s.i.toNat + k.toNat) = s.getV k) ∧
      Frame { stored := List.range' s.i.toNat (x.toNat + 1) } s t) ∧
    (s.i.toNat + x.toNat > 0xFFF →
      exec (.ldIReg x) s = .next (raisedFrom s (packXKK 0xF#4 x 0x55#8) .outOfBounds (some (max s.i.toNat 0x1000))))

/-- R135, R44: LD_REG_I: `V0` to `Vx` inclusive from `I` on when all are in range (VF among them when `x = 0xF`), and nothing else
changes, `I` included (decision D17); otherwise OutOfBounds and no register is written (decision D9; log entry 2). -/
def Obligations.RegistersAreLoaded : Prop :=
  ∀ (x : RegIdx) (s : State), decodeWord (packXKK 0xF#4 x 0x65#8) = .ldRegI x ∧
    (s.i.toNat + x.toNat ≤ 0xFFF → ∃ t, exec (.ldRegI x) s = .next t ∧
      (∀ k : RegIdx, k.toNat ≤ x.toNat → t.getV k = s.peek (s.i.toNat + k.toNat)) ∧
      Frame { regs := regRange (x.toNat + 1) } s t ∧ (∀ k : RegIdx, k.toNat > x.toNat → t.getV k = s.getV k)) ∧
    (s.i.toNat + x.toNat > 0xFFF →
      exec (.ldRegI x) s = .next (raisedFrom s (packXKK 0xF#4 x 0x65#8) .outOfBounds (some (max s.i.toNat 0x1000))))

/-! ### Timers and keys -/

/-- R140: LD_DT reads `DT` as it is before this step's aging, and changes nothing else: the whole step leaves the old value in `Vx`
and `DT` one down. So LD_DT right after a step that left `v` in `DT` by LD_DT_SET reads what that step's aging made of it. -/
def Obligations.DelayTimerIsRead : Prop :=
  ∀ (x : RegIdx) (s : State), decodeWord (packXKK 0xF#4 x 0x07#8) = .ldDt x ∧
    (∃ t, exec (.ldDt x) s = .next t ∧ t.getV x = s.dt ∧ Frame { regs := [x] } s t) ∧
    (s.status = .running → s.fetch s.pc.toNat = .ok (packXKK 0xF#4 x 0x07#8) →
      ∃ t, step s = .next t ∧ t.getV x = s.dt ∧ t.dt.toNat = s.dt.toNat - 1) ∧
    (∀ (y : RegIdx) (u t : State), s.status = .running → s.fetch s.pc.toNat = .ok (packXKK 0xF#4 y 0x15#8) →
      step s = .next u → u.fetch u.pc.toNat = .ok (packXKK 0xF#4 x 0x07#8) → step u = .next t →
      (t.getV x).toNat = (s.getV y).toNat - 1)

/-- R141, R142: LD_DT_SET and LD_ST_SET write the register's value into their timer and nothing else (the aging by the same step is
TimersAgeOncePerCleanStep). -/
def Obligations.TimersAreSet : Prop :=
  ∀ (x : RegIdx) (s : State),
    decodeWord (packXKK 0xF#4 x 0x15#8) = .ldDtSet x ∧ decodeWord (packXKK 0xF#4 x 0x18#8) = .ldStSet x ∧
    (∃ t, exec (.ldDtSet x) s = .next t ∧ t.dt = s.getV x ∧ Frame { dt := true } s t) ∧
    (∃ t, exec (.ldStSet x) s = .next t ∧ t.st = s.getV x ∧ Frame { st := true } s t)

/-- R143, R144, R171: SKP and SKNP, for a register holding a key 0..15, take one sample of that key, whatever it answers, and add 2
to `pc` when it is down, or up; for a value above 15 they raise OutOfBounds with it and sample nothing (decisions D14, D15; the
sample is a free value, log entry 3; the fault is log entry 2). -/
def Obligations.KeySkipsSampleTheKey : Prop :=
  ∀ (x : RegIdx) (s : State),
    decodeWord (packXKK 0xE#4 x 0x9E#8) = .skp x ∧ decodeWord (packXKK 0xE#4 x 0xA1#8) = .sknp x ∧
    (∀ k : Key, k.toNat = (s.getV x).toNat →
      (∃ t, exec (.skp x) s = .next t ∧ t.pc = (if Config.keyDown s.draws k then s.pc + 2 else s.pc) ∧
        t.draws = s.draws + 1 ∧ Frame { pc := true, draws := true } s t) ∧
      (∃ t, exec (.sknp x) s = .next t ∧ t.pc = (if Config.keyDown s.draws k then s.pc else s.pc + 2) ∧
        t.draws = s.draws + 1 ∧ Frame { pc := true, draws := true } s t)) ∧
    ((s.getV x).toNat > 15 →
      exec (.skp x) s =
        .next (raisedFrom s (packXKK 0xE#4 x 0x9E#8) .outOfBounds (some (s.getV x).toNat)) ∧
      exec (.sknp x) s =
        .next (raisedFrom s (packXKK 0xE#4 x 0xA1#8) .outOfBounds (some (s.getV x).toNat)))

/-- R145, R198: LD_K takes one sample: a key goes into `Vx`; with none reported `pc` goes back to this very instruction. So the
whole step that gets no key changes nothing but the timers, which age, and the samples taken, and the one that gets a key moves
on (decision D15; the sample is a free value, log entry 3). -/
def Obligations.WaitForKeyRewinds : Prop :=
  ∀ (x : RegIdx) (s : State), decodeWord (packXKK 0xF#4 x 0x0A#8) = .ldK x ∧
    (∃ t, exec (.ldK x) s = .next t ∧ t.draws = s.draws + 1 ∧
      match Config.nextKey s.draws with
      | some k => (t.getV x).toNat = k.toNat ∧ Frame { regs := [x], draws := true } s t
      | none => t.pc = s.pc - 2 ∧ Frame { pc := true, draws := true } s t) ∧
    (s.status = .running → s.fetch s.pc.toNat = .ok (packXKK 0xF#4 x 0x0A#8) →
      ∃ t, step s = .next t ∧ t.dt.toNat = s.dt.toNat - 1 ∧ t.st.toNat = s.st.toNat - 1 ∧ t.draws = s.draws + 1 ∧
        match Config.nextKey s.draws with
        | some k => t.pc = s.pc + 2 ∧ (t.getV x).toNat = k.toNat ∧
            Frame { regs := [x], pc := true, dt := true, st := true, draws := true } s t
        | none => Frame { dt := true, st := true, draws := true } s t)

/-! ### Display -/

/-- R156, R152: CLS clears every byte, and with it every pixel, of the framebuffer, so that the readout is all zeros; nothing else
changes, VF included, and on a clear display nothing at all. -/
def Obligations.ClearScreenZeroesEveryPixel : Prop :=
  ∀ s : State, decodeWord 0x00E0 = .cls ∧
    ∃ t, exec .cls s = .next t ∧ (∀ k : Fin 256, t.fb[k] = 0) ∧ (∀ p, fbPixel t.fb p = false) ∧
      (∀ k : Fin 2048, t.readout[k] = 0) ∧ Frame { fb := true } s t ∧ ((∀ k : Fin 256, s.fb[k] = 0) → t = s)

/-- R157 with R153, R154: DRW flips exactly the pixels its sprite covers, the sprite being the `n` bytes at `I` on and the place the
old values of `Vx` and `Vy`, and sets VF to 1 when a covered pixel was set, else to 0; nothing else changes. With `n = 0` it
draws nothing, clears VF and cannot fault; with a byte out of range it raises OutOfBounds and draws nothing (decision D9; log
entry 2). -/
def Obligations.DrawFlipsCoveredPixels : Prop :=
  ∀ (x y : RegIdx) (n : Nibble) (s : State), decodeWord (packXYN 0xD#4 x y n) = .drw x y n ∧
    (n.toNat = 0 ∨ s.i.toNat + n.toNat - 1 ≤ 0xFFF → ∃ t, exec (.drw x y n) s = .next t ∧
      (∀ p, SpriteCovers (s.getV x) (s.getV y) (s.peekBytes s.i.toNat n.toNat) p → fbPixel t.fb p = !fbPixel s.fb p) ∧
      (∀ p, ¬ SpriteCovers (s.getV x) (s.getV y) (s.peekBytes s.i.toNat n.toNat) p → fbPixel t.fb p = fbPixel s.fb p) ∧
      ((∃ p, SpriteCovers (s.getV x) (s.getV y) (s.peekBytes s.i.toNat n.toNat) p ∧ fbPixel s.fb p = true) →
        t.getV vf = 1) ∧
      ((¬ ∃ p, SpriteCovers (s.getV x) (s.getV y) (s.peekBytes s.i.toNat n.toNat) p ∧ fbPixel s.fb p = true) →
        t.getV vf = 0) ∧
      Frame { regs := [vf], fb := true } s t) ∧
    (0 < n.toNat → s.i.toNat + n.toNat - 1 > 0xFFF →
      exec (.drw x y n) s =
        .next (raisedFrom s (packXYN 0xD#4 x y n) .outOfBounds (some (max s.i.toNat 0x1000))))

/-- R151: pixel `(col, row)` is bit `7 - (col mod 8)` of byte `row * 8 + col div 8`, and toggling it flips that pixel and no
other. -/
def Obligations.PixelsArePackedMsbFirst : Prop :=
  ∀ (fb : Framebuffer) (col : Fin 64) (row : Fin 32),
    (fbPixel fb (col, row) = true ↔
      (fb[row.val * 8 + col.val / 8]'(by omega)).toNat / 2 ^ (7 - col.val % 8) % 2 = 1) ∧
    ∀ q, fbPixel (fbToggle fb (col, row)) q = if q = (col, row) then !fbPixel fb q else fbPixel fb q

/-- R153, R154: FbDraw, for 0 to 15 sprite rows: the new bitmap has exactly the covered pixels flipped, both axes wrapping, and the
collision is reported exactly when a pixel goes from set to clear. -/
def Obligations.DrawIsPixelwiseXor : Prop :=
  ∀ (fb : Framebuffer) (x y : Byte) (bytes : List Byte), bytes.length ≤ 15 →
    (∀ p, (SpriteCovers x y bytes p → fbPixel (fbDraw fb x y bytes).1 p = !fbPixel fb p) ∧
      (¬ SpriteCovers x y bytes p → fbPixel (fbDraw fb x y bytes).1 p = fbPixel fb p)) ∧
    ((fbDraw fb x y bytes).2 = true ↔ ∃ p, fbPixel fb p = true ∧ fbPixel (fbDraw fb x y bytes).1 p = false)

/-- R158: the byte-level blitter, which touches one or two bytes a row, the second wrapping within the row, gives the same bitmap
and the same collision as the pixel-level one. -/
def Obligations.ByteLevelBlitterAgrees : Prop :=
  ∀ (fb : Framebuffer) (x y : Byte) (bytes : List Byte), bytes.length ≤ 15 →
    fbDrawBytesFrom fb x y 0 bytes = fbDraw fb x y bytes

/-- R159 (the source's property E5): drawing the same sprite twice at the same place restores the bitmap, and the second draw of a
sprite on a clear region collides exactly when the sprite has a set bit. -/
def Obligations.DrawingTwiceRestores : Prop :=
  ∀ (fb : Framebuffer) (x y : Byte) (bytes : List Byte), bytes.length ≤ 15 →
    (fbDraw (fbDraw fb x y bytes).1 x y bytes).1 = fb ∧
    ((fbDraw fb x y bytes).2 = false →
      ((fbDraw (fbDraw fb x y bytes).1 x y bytes).2 = true ↔ ∃ b ∈ bytes, b ≠ 0))

/-- R155: the readout lists the pixels row-major: entry `row * 64 + col` is 255 when pixel `(col, row)` is set and 0 when it is
clear. -/
def Obligations.ReadoutIsRowMajor : Prop :=
  ∀ (s : State) (col : Fin 64) (row : Fin 32),
    s.readout[row.val * 64 + col.val]'(by omega) = if fbPixel s.fb (col, row) then 255 else 0

/-! ### New and Load -/

/-- R190, R30, R46: New, for every setting of the parameters: Unloaded, every register, timer, stack entry and framebuffer byte 0
(decision D18 for all but the V registers), the 80 font bytes from `FONT_BASE` on and 0 in every other byte of memory (decisions
D1, D2). -/
def Obligations.NewSeedsTheFont : Prop :=
  ∀ cfg : Config,
    (State.new cfg).status = .unloaded ∧ (State.new cfg).cfg = cfg ∧
    (∀ r, (State.new cfg).getV r = 0) ∧ (State.new cfg).i = 0 ∧ (State.new cfg).sp = 0 ∧
    (State.new cfg).dt = 0 ∧ (State.new cfg).st = 0 ∧
    (∀ k : Fin 16, (State.new cfg).stack[k] = 0) ∧ (∀ k : Fin 256, (State.new cfg).fb[k] = 0) ∧
    (∀ (d : Fin 16) (r : Fin 5), (State.new cfg).peek (cfg.fontBase.val + 5 * d.val + r.val) = cfg.font[d][r]) ∧
    (∀ a, a < cfg.fontBase.val ∨ cfg.fontBase.val + 80 ≤ a → (State.new cfg).peek a = 0)

/-- R191, R192, R174: Load on an Unloaded machine copies a ROM of at most 3584 bytes to 0x200 on, sets `pc` to 0x200 and the status
to Running, and changes nothing else; a longer ROM fails with OutOfBounds; on any other machine there is no such move (decision
D19). -/
def Obligations.LoadCopiesTheRom : Prop :=
  ∀ (s : State) (rom : List Byte),
    (s.status = .unloaded → rom.length ≤ 3584 →
      ∃ t, s.load rom = .loaded t ∧ t.status = .running ∧ t.pc = 0x200 ∧
        (∀ k, ∀ h : k < rom.length, t.peek (0x200 + k) = rom[k]) ∧
        Frame { status := true, pc := true, stored := List.range' 0x200 rom.length } s t) ∧
    (s.status = .unloaded → rom.length > 3584 → s.load rom = .outOfBounds) ∧
    (s.status ≠ .unloaded → s.load rom = .notAdmitted)

/-- R193, R30, R46: State.reset is New with the default parameters and then Load of the empty ROM (the model's choice of the state
after reset, log entry 1): Running, `pc` 0x200, the V registers 0 and, by decision D18 (log entry 7), `I`, `sp`, DT, ST, the stack
entries and every pixel 0; memory is, by decisions D1 and D2 (log entry 5, the bytes PRESUMED by the spec), the 80 bytes of the
default font from 0x000 on, and 0 in every other byte; the first step executes the instruction at 0x200, which in the empty ROM is
SYS. -/
def Obligations.ResetIsNewThenLoad : Prop :=
  (State.new defaultConfig).load [] = .loaded State.reset ∧
  State.reset.status = .running ∧ State.reset.pc = 0x200 ∧ State.reset.sp = 0 ∧ State.reset.i = 0 ∧
  State.reset.dt = 0 ∧ State.reset.st = 0 ∧ (∀ r, State.reset.getV r = 0) ∧ (∀ k : Fin 16, State.reset.stack[k] = 0) ∧
  (∀ p, fbPixel State.reset.fb p = false) ∧
  State.reset.peekBytes 0x000 80 =
    [0xF0, 0x90, 0x90, 0x90, 0xF0] ++ [0x20, 0x60, 0x20, 0x20, 0x70] ++ [0xF0, 0x10, 0xF0, 0x80, 0xF0] ++
    [0xF0, 0x10, 0xF0, 0x10, 0xF0] ++ [0x90, 0x90, 0xF0, 0x10, 0x10] ++ [0xF0, 0x80, 0xF0, 0x10, 0xF0] ++
    [0xF0, 0x80, 0xF0, 0x90, 0xF0] ++ [0xF0, 0x10, 0x20, 0x40, 0x40] ++ [0xF0, 0x90, 0xF0, 0x90, 0xF0] ++
    [0xF0, 0x90, 0xF0, 0x10, 0xF0] ++ [0xF0, 0x90, 0xF0, 0x90, 0x90] ++ [0xE0, 0x90, 0xE0, 0x90, 0xE0] ++
    [0xF0, 0x80, 0x80, 0x80, 0xF0] ++ [0xE0, 0x90, 0x90, 0x90, 0xE0] ++ [0xF0, 0x80, 0xF0, 0x80, 0xF0] ++
    [0xF0, 0x80, 0xF0, 0x80, 0x80] ∧
  (∀ a, 80 ≤ a → State.reset.peek a = 0) ∧
  step State.reset = .next { State.reset with pc := 0x202 }
end

