-- ==== Sys2Proof/Laws/Decode.lean ====
section
/-! SUPPORT. The fields of packed words, and words from their fields (30_encoding.md R56). -/

namespace Sys2Proof

theorem opOf_toNat (w : Word) : (opOf w).toNat = w.toNat / 4096 := by
  have := w.isLt
  simp [opOf, Nat.shiftRight_eq_div_pow]; omega

theorem xOf_toNat (w : Word) : (xOf w).toNat = w.toNat / 256 % 16 := by
  simp [xOf, Nat.shiftRight_eq_div_pow]

theorem yOf_toNat (w : Word) : (yOf w).toNat = w.toNat / 16 % 16 := by
  simp [yOf, Nat.shiftRight_eq_div_pow]

theorem nOf_toNat (w : Word) : (nOf w).toNat = w.toNat % 16 := by simp [nOf]

theorem kkOf_toNat (w : Word) : (kkOf w).toNat = w.toNat % 256 := by simp [kkOf]

theorem nnnOf_toNat (w : Word) : (nnnOf w).toNat = w.toNat % 4096 := by simp [nnnOf]

theorem append_toNat {m n : Nat} (a : BitVec m) (b : BitVec n) : (a ++ b).toNat = a.toNat * 2 ^ n + b.toNat := by
  rw [BitVec.toNat_append, Nat.shiftLeft_eq, Nat.mul_comm, ← Nat.two_pow_add_eq_or_of_lt b.isLt]

theorem packNNN_toNat (op : Nibble) (nnn : Addr12) : (packNNN op nnn).toNat = op.toNat * 4096 + nnn.toNat :=
  append_toNat op nnn

theorem packXKK_toNat (op : Nibble) (x : RegIdx) (kk : Byte) :
    (packXKK op x kk).toNat = op.toNat * 4096 + x.toNat * 256 + kk.toNat := by
  have h : (packXKK op x kk).toNat = (op ++ x).toNat * 2 ^ 8 + kk.toNat := append_toNat _ _
  rw [h, append_toNat]; omega

theorem packXYN_toNat (op : Nibble) (x y : RegIdx) (n : Nibble) :
    (packXYN op x y n).toNat = op.toNat * 4096 + x.toNat * 256 + y.toNat * 16 + n.toNat := by
  have h : (packXYN op x y n).toNat = (op ++ x ++ y).toNat * 2 ^ 4 + n.toNat := append_toNat _ _
  rw [h, append_toNat, append_toNat]; omega

theorem wordOfBytes_toNat (hi lo : Byte) : (wordOfBytes hi lo).toNat = hi.toNat * 256 + lo.toNat := append_toNat hi lo

theorem highByte_toNat (w : Word) : (highByte w).toNat = w.toNat / 256 := by
  have := w.isLt
  simp [highByte, Nat.shiftRight_eq_div_pow]; omega

theorem lowByte_toNat (w : Word) : (lowByte w).toNat = w.toNat % 256 := by simp [lowByte]

/-- Splitting a word in its two bytes and joining them gives it back (R48). -/
@[simp] theorem wordOfBytes_high_low (w : Word) : wordOfBytes (highByte w) (lowByte w) = w := by
  apply BitVec.eq_of_toNat_eq
  rw [wordOfBytes_toNat, highByte_toNat, lowByte_toNat]; omega

section
variable (op : Nibble) (x y : RegIdx) (n : Nibble) (kk : Byte) (nnn : Addr12)

@[simp] theorem opOf_packNNN : opOf (packNNN op nnn) = op := by
  apply BitVec.eq_of_toNat_eq; have := nnn.isLt; rw [opOf_toNat, packNNN_toNat]; omega

@[simp] theorem nnnOf_packNNN : nnnOf (packNNN op nnn) = nnn := by
  apply BitVec.eq_of_toNat_eq; have := nnn.isLt; rw [nnnOf_toNat, packNNN_toNat]; omega

@[simp] theorem opOf_packXKK : opOf (packXKK op x kk) = op := by
  apply BitVec.eq_of_toNat_eq; have := x.isLt; have := kk.isLt; rw [opOf_toNat, packXKK_toNat]; omega

@[simp] theorem xOf_packXKK : xOf (packXKK op x kk) = x := by
  apply BitVec.eq_of_toNat_eq; have := x.isLt; have := kk.isLt; rw [xOf_toNat, packXKK_toNat]; omega

@[simp] theorem kkOf_packXKK : kkOf (packXKK op x kk) = kk := by
  apply BitVec.eq_of_toNat_eq; have := x.isLt; have := kk.isLt; rw [kkOf_toNat, packXKK_toNat]; omega

theorem yOf_packXKK : yOf (packXKK op x kk) = kk.extractLsb' 4 4 := by
  apply BitVec.eq_of_toNat_eq; rw [yOf_toNat, packXKK_toNat]; simp [Nat.shiftRight_eq_div_pow]; omega

theorem nOf_packXKK : nOf (packXKK op x kk) = kk.extractLsb' 0 4 := by
  apply BitVec.eq_of_toNat_eq; rw [nOf_toNat, packXKK_toNat]; simp; omega

@[simp] theorem opOf_packXYN : opOf (packXYN op x y n) = op := by
  apply BitVec.eq_of_toNat_eq; have := x.isLt; have := y.isLt; have := n.isLt; rw [opOf_toNat, packXYN_toNat]; omega

@[simp] theorem xOf_packXYN : xOf (packXYN op x y n) = x := by
  apply BitVec.eq_of_toNat_eq; have := x.isLt; have := y.isLt; have := n.isLt; rw [xOf_toNat, packXYN_toNat]; omega

@[simp] theorem yOf_packXYN : yOf (packXYN op x y n) = y := by
  apply BitVec.eq_of_toNat_eq; have := x.isLt; have := y.isLt; have := n.isLt; rw [yOf_toNat, packXYN_toNat]; omega

@[simp] theorem nOf_packXYN : nOf (packXYN op x y n) = n := by
  apply BitVec.eq_of_toNat_eq; have := x.isLt; have := y.isLt; have := n.isLt; rw [nOf_toNat, packXYN_toNat]; omega

end

/-- A word is its fields `op` and `nnn`. -/
theorem packNNN_fields (w : Word) : packNNN (opOf w) (nnnOf w) = w := by
  apply BitVec.eq_of_toNat_eq; rw [packNNN_toNat, opOf_toNat, nnnOf_toNat]; omega

/-- A word is its fields `op`, `x` and `kk`. -/
theorem packXKK_fields (w : Word) : packXKK (opOf w) (xOf w) (kkOf w) = w := by
  apply BitVec.eq_of_toNat_eq; rw [packXKK_toNat, opOf_toNat, xOf_toNat, kkOf_toNat]; omega

/-- A word is its fields `op`, `x`, `y` and `n`. -/
theorem packXYN_fields (w : Word) : packXYN (opOf w) (xOf w) (yOf w) (nOf w) = w := by
  apply BitVec.eq_of_toNat_eq; rw [packXYN_toNat, opOf_toNat, xOf_toNat, yOf_toNat, nOf_toNat]; omega

/-- Masking a word with the opcode map's masks (R62): the mask's nibbles keep the word's, the others become 0. -/
theorem packXYN_and (op x y n op' x' y' n' : BitVec 4) :
    packXYN op x y n &&& packXYN op' x' y' n' = packXYN (op &&& op') (x &&& x') (y &&& y') (n &&& n') := by
  simp only [packXYN]
  apply BitVec.eq_of_getLsbD_eq
  intro i hi
  simp only [BitVec.getLsbD_and, BitVec.getLsbD_append]
  repeat' split
  all_goals rfl

/-- A word under the mask 0xF000 is its top nibble; under 0xF00F its top and bottom nibbles; under 0xF0FF all but `x`. -/
theorem word_and_masks (w : Word) :
    w &&& 0xF000#16 = packXYN (opOf w) 0 0 0 ∧ w &&& 0xF00F#16 = packXYN (opOf w) 0 0 (nOf w) ∧
      w &&& 0xF0FF#16 = packXYN (opOf w) 0 (yOf w) (nOf w) := by
  have f : ∀ b : BitVec 4, b &&& 15#4 = b := by decide
  have key : ∀ m0 m1 m2 m3 : BitVec 4, w &&& packXYN m0 m1 m2 m3 =
      packXYN (opOf w &&& m0) (xOf w &&& m1) (yOf w &&& m2) (nOf w &&& m3) := by
    intro m0 m1 m2 m3
    rw [← packXYN_and, packXYN_fields]
  have a1 : (0xF000#16) = packXYN 0xF 0 0 0 := by decide
  have a2 : (0xF00F#16) = packXYN 0xF 0 0 0xF := by decide
  have a3 : (0xF0FF#16) = packXYN 0xF 0 0xF 0xF := by decide
  rw [a1, a2, a3, key, key, key]
  simp [f]

end Sys2Proof
end

