-- ==== Sys2Proof/Laws/State.lean ====
section
/-! SUPPORT. One lemma per field per update of the state, and per observer (`getV`, `peek`) per update, true by rfl, so that no
proof unfolds a record update. -/

namespace Sys2Proof.Machine

/-! ### setV -/

@[simp] theorem State.setV_status (s : State) (x : RegIdx) (b : Byte) : (s.setV x b).status = s.status := rfl
@[simp] theorem State.setV_v (s : State) (x : RegIdx) (b : Byte) : (s.setV x b).v = s.v.set x.toNat b := rfl
@[simp] theorem State.setV_i (s : State) (x : RegIdx) (b : Byte) : (s.setV x b).i = s.i := rfl
@[simp] theorem State.setV_pc (s : State) (x : RegIdx) (b : Byte) : (s.setV x b).pc = s.pc := rfl
@[simp] theorem State.setV_stack (s : State) (x : RegIdx) (b : Byte) : (s.setV x b).stack = s.stack := rfl
@[simp] theorem State.setV_sp (s : State) (x : RegIdx) (b : Byte) : (s.setV x b).sp = s.sp := rfl
@[simp] theorem State.setV_dt (s : State) (x : RegIdx) (b : Byte) : (s.setV x b).dt = s.dt := rfl
@[simp] theorem State.setV_st (s : State) (x : RegIdx) (b : Byte) : (s.setV x b).st = s.st := rfl
@[simp] theorem State.setV_mem (s : State) (x : RegIdx) (b : Byte) : (s.setV x b).mem = s.mem := rfl
@[simp] theorem State.setV_fb (s : State) (x : RegIdx) (b : Byte) : (s.setV x b).fb = s.fb := rfl
@[simp] theorem State.setV_cfg (s : State) (x : RegIdx) (b : Byte) : (s.setV x b).cfg = s.cfg := rfl
@[simp] theorem State.setV_draws (s : State) (x : RegIdx) (b : Byte) : (s.setV x b).draws = s.draws := rfl
@[simp] theorem State.setV_peek (s : State) (x : RegIdx) (b : Byte) (c : Nat) : (s.setV x b).peek c = s.peek c := rfl

/-! ### setVf -/

@[simp] theorem State.setVf_status (s : State) (b : Byte) : (s.setVf b).status = s.status := rfl
@[simp] theorem State.setVf_v (s : State) (b : Byte) : (s.setVf b).v = s.v.set 15 b := rfl
@[simp] theorem State.setVf_i (s : State) (b : Byte) : (s.setVf b).i = s.i := rfl
@[simp] theorem State.setVf_pc (s : State) (b : Byte) : (s.setVf b).pc = s.pc := rfl
@[simp] theorem State.setVf_stack (s : State) (b : Byte) : (s.setVf b).stack = s.stack := rfl
@[simp] theorem State.setVf_sp (s : State) (b : Byte) : (s.setVf b).sp = s.sp := rfl
@[simp] theorem State.setVf_dt (s : State) (b : Byte) : (s.setVf b).dt = s.dt := rfl
@[simp] theorem State.setVf_st (s : State) (b : Byte) : (s.setVf b).st = s.st := rfl
@[simp] theorem State.setVf_mem (s : State) (b : Byte) : (s.setVf b).mem = s.mem := rfl
@[simp] theorem State.setVf_fb (s : State) (b : Byte) : (s.setVf b).fb = s.fb := rfl
@[simp] theorem State.setVf_cfg (s : State) (b : Byte) : (s.setVf b).cfg = s.cfg := rfl
@[simp] theorem State.setVf_draws (s : State) (b : Byte) : (s.setVf b).draws = s.draws := rfl
@[simp] theorem State.setVf_peek (s : State) (b : Byte) (c : Nat) : (s.setVf b).peek c = s.peek c := rfl

/-! ### poke -/

@[simp] theorem State.poke_status (s : State) (a : Nat) (b : Byte) : (s.poke a b).status = s.status := rfl
@[simp] theorem State.poke_v (s : State) (a : Nat) (b : Byte) : (s.poke a b).v = s.v := rfl
@[simp] theorem State.poke_i (s : State) (a : Nat) (b : Byte) : (s.poke a b).i = s.i := rfl
@[simp] theorem State.poke_pc (s : State) (a : Nat) (b : Byte) : (s.poke a b).pc = s.pc := rfl
@[simp] theorem State.poke_stack (s : State) (a : Nat) (b : Byte) : (s.poke a b).stack = s.stack := rfl
@[simp] theorem State.poke_sp (s : State) (a : Nat) (b : Byte) : (s.poke a b).sp = s.sp := rfl
@[simp] theorem State.poke_dt (s : State) (a : Nat) (b : Byte) : (s.poke a b).dt = s.dt := rfl
@[simp] theorem State.poke_st (s : State) (a : Nat) (b : Byte) : (s.poke a b).st = s.st := rfl
@[simp] theorem State.poke_mem (s : State) (a : Nat) (b : Byte) : (s.poke a b).mem = Memory.write s.cfg s.mem a b := rfl
@[simp] theorem State.poke_fb (s : State) (a : Nat) (b : Byte) : (s.poke a b).fb = s.fb := rfl
@[simp] theorem State.poke_cfg (s : State) (a : Nat) (b : Byte) : (s.poke a b).cfg = s.cfg := rfl
@[simp] theorem State.poke_draws (s : State) (a : Nat) (b : Byte) : (s.poke a b).draws = s.draws := rfl
@[simp] theorem State.poke_getV (s : State) (a : Nat) (b : Byte) (r : RegIdx) : (s.poke a b).getV r = s.getV r := rfl

/-! ### setPc -/

@[simp] theorem State.setPc_status (s : State) (w : Word) : (s.setPc w).status = s.status := rfl
@[simp] theorem State.setPc_v (s : State) (w : Word) : (s.setPc w).v = s.v := rfl
@[simp] theorem State.setPc_i (s : State) (w : Word) : (s.setPc w).i = s.i := rfl
@[simp] theorem State.setPc_pc (s : State) (w : Word) : (s.setPc w).pc = w := rfl
@[simp] theorem State.setPc_stack (s : State) (w : Word) : (s.setPc w).stack = s.stack := rfl
@[simp] theorem State.setPc_sp (s : State) (w : Word) : (s.setPc w).sp = s.sp := rfl
@[simp] theorem State.setPc_dt (s : State) (w : Word) : (s.setPc w).dt = s.dt := rfl
@[simp] theorem State.setPc_st (s : State) (w : Word) : (s.setPc w).st = s.st := rfl
@[simp] theorem State.setPc_mem (s : State) (w : Word) : (s.setPc w).mem = s.mem := rfl
@[simp] theorem State.setPc_fb (s : State) (w : Word) : (s.setPc w).fb = s.fb := rfl
@[simp] theorem State.setPc_cfg (s : State) (w : Word) : (s.setPc w).cfg = s.cfg := rfl
@[simp] theorem State.setPc_draws (s : State) (w : Word) : (s.setPc w).draws = s.draws := rfl
@[simp] theorem State.setPc_getV (s : State) (w : Word) (r : RegIdx) : (s.setPc w).getV r = s.getV r := rfl
@[simp] theorem State.setPc_peek (s : State) (w : Word) (c : Nat) : (s.setPc w).peek c = s.peek c := rfl

/-! ### advancePc -/

@[simp] theorem State.advancePc_status (s : State) : s.advancePc.status = s.status := rfl
@[simp] theorem State.advancePc_v (s : State) : s.advancePc.v = s.v := rfl
@[simp] theorem State.advancePc_i (s : State) : s.advancePc.i = s.i := rfl
@[simp] theorem State.advancePc_pc (s : State) : s.advancePc.pc = s.pc + 2 := rfl
@[simp] theorem State.advancePc_stack (s : State) : s.advancePc.stack = s.stack := rfl
@[simp] theorem State.advancePc_sp (s : State) : s.advancePc.sp = s.sp := rfl
@[simp] theorem State.advancePc_dt (s : State) : s.advancePc.dt = s.dt := rfl
@[simp] theorem State.advancePc_st (s : State) : s.advancePc.st = s.st := rfl
@[simp] theorem State.advancePc_mem (s : State) : s.advancePc.mem = s.mem := rfl
@[simp] theorem State.advancePc_fb (s : State) : s.advancePc.fb = s.fb := rfl
@[simp] theorem State.advancePc_cfg (s : State) : s.advancePc.cfg = s.cfg := rfl
@[simp] theorem State.advancePc_draws (s : State) : s.advancePc.draws = s.draws := rfl
@[simp] theorem State.advancePc_getV (s : State) (r : RegIdx) : s.advancePc.getV r = s.getV r := rfl
@[simp] theorem State.advancePc_peek (s : State) (c : Nat) : s.advancePc.peek c = s.peek c := rfl

/-! ### rewindPc -/

@[simp] theorem State.rewindPc_status (s : State) : s.rewindPc.status = s.status := rfl
@[simp] theorem State.rewindPc_v (s : State) : s.rewindPc.v = s.v := rfl
@[simp] theorem State.rewindPc_i (s : State) : s.rewindPc.i = s.i := rfl
@[simp] theorem State.rewindPc_pc (s : State) : s.rewindPc.pc = s.pc - 2 := rfl
@[simp] theorem State.rewindPc_stack (s : State) : s.rewindPc.stack = s.stack := rfl
@[simp] theorem State.rewindPc_sp (s : State) : s.rewindPc.sp = s.sp := rfl
@[simp] theorem State.rewindPc_dt (s : State) : s.rewindPc.dt = s.dt := rfl
@[simp] theorem State.rewindPc_st (s : State) : s.rewindPc.st = s.st := rfl
@[simp] theorem State.rewindPc_mem (s : State) : s.rewindPc.mem = s.mem := rfl
@[simp] theorem State.rewindPc_fb (s : State) : s.rewindPc.fb = s.fb := rfl
@[simp] theorem State.rewindPc_cfg (s : State) : s.rewindPc.cfg = s.cfg := rfl
@[simp] theorem State.rewindPc_draws (s : State) : s.rewindPc.draws = s.draws := rfl
@[simp] theorem State.rewindPc_getV (s : State) (r : RegIdx) : s.rewindPc.getV r = s.getV r := rfl
@[simp] theorem State.rewindPc_peek (s : State) (c : Nat) : s.rewindPc.peek c = s.peek c := rfl

/-! ### setI -/

@[simp] theorem State.setI_status (s : State) (w : Word) : (s.setI w).status = s.status := rfl
@[simp] theorem State.setI_v (s : State) (w : Word) : (s.setI w).v = s.v := rfl
@[simp] theorem State.setI_i (s : State) (w : Word) : (s.setI w).i = w := rfl
@[simp] theorem State.setI_pc (s : State) (w : Word) : (s.setI w).pc = s.pc := rfl
@[simp] theorem State.setI_stack (s : State) (w : Word) : (s.setI w).stack = s.stack := rfl
@[simp] theorem State.setI_sp (s : State) (w : Word) : (s.setI w).sp = s.sp := rfl
@[simp] theorem State.setI_dt (s : State) (w : Word) : (s.setI w).dt = s.dt := rfl
@[simp] theorem State.setI_st (s : State) (w : Word) : (s.setI w).st = s.st := rfl
@[simp] theorem State.setI_mem (s : State) (w : Word) : (s.setI w).mem = s.mem := rfl
@[simp] theorem State.setI_fb (s : State) (w : Word) : (s.setI w).fb = s.fb := rfl
@[simp] theorem State.setI_cfg (s : State) (w : Word) : (s.setI w).cfg = s.cfg := rfl
@[simp] theorem State.setI_draws (s : State) (w : Word) : (s.setI w).draws = s.draws := rfl
@[simp] theorem State.setI_getV (s : State) (w : Word) (r : RegIdx) : (s.setI w).getV r = s.getV r := rfl
@[simp] theorem State.setI_peek (s : State) (w : Word) (c : Nat) : (s.setI w).peek c = s.peek c := rfl

/-! ### setDt -/

@[simp] theorem State.setDt_status (s : State) (b : Byte) : (s.setDt b).status = s.status := rfl
@[simp] theorem State.setDt_v (s : State) (b : Byte) : (s.setDt b).v = s.v := rfl
@[simp] theorem State.setDt_i (s : State) (b : Byte) : (s.setDt b).i = s.i := rfl
@[simp] theorem State.setDt_pc (s : State) (b : Byte) : (s.setDt b).pc = s.pc := rfl
@[simp] theorem State.setDt_stack (s : State) (b : Byte) : (s.setDt b).stack = s.stack := rfl
@[simp] theorem State.setDt_sp (s : State) (b : Byte) : (s.setDt b).sp = s.sp := rfl
@[simp] theorem State.setDt_dt (s : State) (b : Byte) : (s.setDt b).dt = b := rfl
@[simp] theorem State.setDt_st (s : State) (b : Byte) : (s.setDt b).st = s.st := rfl
@[simp] theorem State.setDt_mem (s : State) (b : Byte) : (s.setDt b).mem = s.mem := rfl
@[simp] theorem State.setDt_fb (s : State) (b : Byte) : (s.setDt b).fb = s.fb := rfl
@[simp] theorem State.setDt_cfg (s : State) (b : Byte) : (s.setDt b).cfg = s.cfg := rfl
@[simp] theorem State.setDt_draws (s : State) (b : Byte) : (s.setDt b).draws = s.draws := rfl
@[simp] theorem State.setDt_getV (s : State) (b : Byte) (r : RegIdx) : (s.setDt b).getV r = s.getV r := rfl
@[simp] theorem State.setDt_peek (s : State) (b : Byte) (c : Nat) : (s.setDt b).peek c = s.peek c := rfl

/-! ### setSt -/

@[simp] theorem State.setSt_status (s : State) (b : Byte) : (s.setSt b).status = s.status := rfl
@[simp] theorem State.setSt_v (s : State) (b : Byte) : (s.setSt b).v = s.v := rfl
@[simp] theorem State.setSt_i (s : State) (b : Byte) : (s.setSt b).i = s.i := rfl
@[simp] theorem State.setSt_pc (s : State) (b : Byte) : (s.setSt b).pc = s.pc := rfl
@[simp] theorem State.setSt_stack (s : State) (b : Byte) : (s.setSt b).stack = s.stack := rfl
@[simp] theorem State.setSt_sp (s : State) (b : Byte) : (s.setSt b).sp = s.sp := rfl
@[simp] theorem State.setSt_dt (s : State) (b : Byte) : (s.setSt b).dt = s.dt := rfl
@[simp] theorem State.setSt_st (s : State) (b : Byte) : (s.setSt b).st = b := rfl
@[simp] theorem State.setSt_mem (s : State) (b : Byte) : (s.setSt b).mem = s.mem := rfl
@[simp] theorem State.setSt_fb (s : State) (b : Byte) : (s.setSt b).fb = s.fb := rfl
@[simp] theorem State.setSt_cfg (s : State) (b : Byte) : (s.setSt b).cfg = s.cfg := rfl
@[simp] theorem State.setSt_draws (s : State) (b : Byte) : (s.setSt b).draws = s.draws := rfl
@[simp] theorem State.setSt_getV (s : State) (b : Byte) (r : RegIdx) : (s.setSt b).getV r = s.getV r := rfl
@[simp] theorem State.setSt_peek (s : State) (b : Byte) (c : Nat) : (s.setSt b).peek c = s.peek c := rfl

/-! ### setFb -/

@[simp] theorem State.setFb_status (s : State) (f : Framebuffer) : (s.setFb f).status = s.status := rfl
@[simp] theorem State.setFb_v (s : State) (f : Framebuffer) : (s.setFb f).v = s.v := rfl
@[simp] theorem State.setFb_i (s : State) (f : Framebuffer) : (s.setFb f).i = s.i := rfl
@[simp] theorem State.setFb_pc (s : State) (f : Framebuffer) : (s.setFb f).pc = s.pc := rfl
@[simp] theorem State.setFb_stack (s : State) (f : Framebuffer) : (s.setFb f).stack = s.stack := rfl
@[simp] theorem State.setFb_sp (s : State) (f : Framebuffer) : (s.setFb f).sp = s.sp := rfl
@[simp] theorem State.setFb_dt (s : State) (f : Framebuffer) : (s.setFb f).dt = s.dt := rfl
@[simp] theorem State.setFb_st (s : State) (f : Framebuffer) : (s.setFb f).st = s.st := rfl
@[simp] theorem State.setFb_mem (s : State) (f : Framebuffer) : (s.setFb f).mem = s.mem := rfl
@[simp] theorem State.setFb_fb (s : State) (f : Framebuffer) : (s.setFb f).fb = f := rfl
@[simp] theorem State.setFb_cfg (s : State) (f : Framebuffer) : (s.setFb f).cfg = s.cfg := rfl
@[simp] theorem State.setFb_draws (s : State) (f : Framebuffer) : (s.setFb f).draws = s.draws := rfl
@[simp] theorem State.setFb_getV (s : State) (f : Framebuffer) (r : RegIdx) : (s.setFb f).getV r = s.getV r := rfl
@[simp] theorem State.setFb_peek (s : State) (f : Framebuffer) (c : Nat) : (s.setFb f).peek c = s.peek c := rfl

/-! ### drawn -/

@[simp] theorem State.drawn_status (s : State) : s.drawn.status = s.status := rfl
@[simp] theorem State.drawn_v (s : State) : s.drawn.v = s.v := rfl
@[simp] theorem State.drawn_i (s : State) : s.drawn.i = s.i := rfl
@[simp] theorem State.drawn_pc (s : State) : s.drawn.pc = s.pc := rfl
@[simp] theorem State.drawn_stack (s : State) : s.drawn.stack = s.stack := rfl
@[simp] theorem State.drawn_sp (s : State) : s.drawn.sp = s.sp := rfl
@[simp] theorem State.drawn_dt (s : State) : s.drawn.dt = s.dt := rfl
@[simp] theorem State.drawn_st (s : State) : s.drawn.st = s.st := rfl
@[simp] theorem State.drawn_mem (s : State) : s.drawn.mem = s.mem := rfl
@[simp] theorem State.drawn_fb (s : State) : s.drawn.fb = s.fb := rfl
@[simp] theorem State.drawn_cfg (s : State) : s.drawn.cfg = s.cfg := rfl
@[simp] theorem State.drawn_draws (s : State) : s.drawn.draws = s.draws + 1 := rfl
@[simp] theorem State.drawn_getV (s : State) (r : RegIdx) : s.drawn.getV r = s.getV r := rfl
@[simp] theorem State.drawn_peek (s : State) (c : Nat) : s.drawn.peek c = s.peek c := rfl

/-! ### ageTimers -/

@[simp] theorem State.ageTimers_status (s : State) : s.ageTimers.status = s.status := rfl
@[simp] theorem State.ageTimers_v (s : State) : s.ageTimers.v = s.v := rfl
@[simp] theorem State.ageTimers_i (s : State) : s.ageTimers.i = s.i := rfl
@[simp] theorem State.ageTimers_pc (s : State) : s.ageTimers.pc = s.pc := rfl
@[simp] theorem State.ageTimers_stack (s : State) : s.ageTimers.stack = s.stack := rfl
@[simp] theorem State.ageTimers_sp (s : State) : s.ageTimers.sp = s.sp := rfl
@[simp] theorem State.ageTimers_dt (s : State) : s.ageTimers.dt = ageTimer s.dt := rfl
@[simp] theorem State.ageTimers_st (s : State) : s.ageTimers.st = ageTimer s.st := rfl
@[simp] theorem State.ageTimers_mem (s : State) : s.ageTimers.mem = s.mem := rfl
@[simp] theorem State.ageTimers_fb (s : State) : s.ageTimers.fb = s.fb := rfl
@[simp] theorem State.ageTimers_cfg (s : State) : s.ageTimers.cfg = s.cfg := rfl
@[simp] theorem State.ageTimers_draws (s : State) : s.ageTimers.draws = s.draws := rfl
@[simp] theorem State.ageTimers_getV (s : State) (r : RegIdx) : s.ageTimers.getV r = s.getV r := rfl
@[simp] theorem State.ageTimers_peek (s : State) (c : Nat) : s.ageTimers.peek c = s.peek c := rfl

/-! ### takeFault -/

@[simp] theorem State.takeFault_status (s : State) (k : FaultKind) (w : Option Word) (o : Option Nat) : (s.takeFault k w o).status = .faulted { kind := k, pc := s.pc, word := w, info := o } := rfl
@[simp] theorem State.takeFault_v (s : State) (k : FaultKind) (w : Option Word) (o : Option Nat) : (s.takeFault k w o).v = s.v := rfl
@[simp] theorem State.takeFault_i (s : State) (k : FaultKind) (w : Option Word) (o : Option Nat) : (s.takeFault k w o).i = s.i := rfl
@[simp] theorem State.takeFault_pc (s : State) (k : FaultKind) (w : Option Word) (o : Option Nat) : (s.takeFault k w o).pc = s.pc := rfl
@[simp] theorem State.takeFault_stack (s : State) (k : FaultKind) (w : Option Word) (o : Option Nat) : (s.takeFault k w o).stack = s.stack := rfl
@[simp] theorem State.takeFault_sp (s : State) (k : FaultKind) (w : Option Word) (o : Option Nat) : (s.takeFault k w o).sp = s.sp := rfl
@[simp] theorem State.takeFault_dt (s : State) (k : FaultKind) (w : Option Word) (o : Option Nat) : (s.takeFault k w o).dt = s.dt := rfl
@[simp] theorem State.takeFault_st (s : State) (k : FaultKind) (w : Option Word) (o : Option Nat) : (s.takeFault k w o).st = s.st := rfl
@[simp] theorem State.takeFault_mem (s : State) (k : FaultKind) (w : Option Word) (o : Option Nat) : (s.takeFault k w o).mem = s.mem := rfl
@[simp] theorem State.takeFault_fb (s : State) (k : FaultKind) (w : Option Word) (o : Option Nat) : (s.takeFault k w o).fb = s.fb := rfl
@[simp] theorem State.takeFault_cfg (s : State) (k : FaultKind) (w : Option Word) (o : Option Nat) : (s.takeFault k w o).cfg = s.cfg := rfl
@[simp] theorem State.takeFault_draws (s : State) (k : FaultKind) (w : Option Word) (o : Option Nat) : (s.takeFault k w o).draws = s.draws := rfl
@[simp] theorem State.takeFault_getV (s : State) (k : FaultKind) (w : Option Word) (o : Option Nat) (r : RegIdx) : (s.takeFault k w o).getV r = s.getV r := rfl
@[simp] theorem State.takeFault_peek (s : State) (k : FaultKind) (w : Option Word) (o : Option Nat) (c : Nat) : (s.takeFault k w o).peek c = s.peek c := rfl

/-! ### raise -/

@[simp] theorem State.raise_status (s : State) (i : Instr) (k : FaultKind) (o : Option Nat) : (s.raise i k o).status = .faulted { kind := k, pc := s.pc - 2, word := some (encode i), info := o } := rfl
@[simp] theorem State.raise_v (s : State) (i : Instr) (k : FaultKind) (o : Option Nat) : (s.raise i k o).v = s.v := rfl
@[simp] theorem State.raise_i (s : State) (i : Instr) (k : FaultKind) (o : Option Nat) : (s.raise i k o).i = s.i := rfl
@[simp] theorem State.raise_pc (s : State) (i : Instr) (k : FaultKind) (o : Option Nat) : (s.raise i k o).pc = s.pc - 2 := rfl
@[simp] theorem State.raise_stack (s : State) (i : Instr) (k : FaultKind) (o : Option Nat) : (s.raise i k o).stack = s.stack := rfl
@[simp] theorem State.raise_sp (s : State) (i : Instr) (k : FaultKind) (o : Option Nat) : (s.raise i k o).sp = s.sp := rfl
@[simp] theorem State.raise_dt (s : State) (i : Instr) (k : FaultKind) (o : Option Nat) : (s.raise i k o).dt = s.dt := rfl
@[simp] theorem State.raise_st (s : State) (i : Instr) (k : FaultKind) (o : Option Nat) : (s.raise i k o).st = s.st := rfl
@[simp] theorem State.raise_mem (s : State) (i : Instr) (k : FaultKind) (o : Option Nat) : (s.raise i k o).mem = s.mem := rfl
@[simp] theorem State.raise_fb (s : State) (i : Instr) (k : FaultKind) (o : Option Nat) : (s.raise i k o).fb = s.fb := rfl
@[simp] theorem State.raise_cfg (s : State) (i : Instr) (k : FaultKind) (o : Option Nat) : (s.raise i k o).cfg = s.cfg := rfl
@[simp] theorem State.raise_draws (s : State) (i : Instr) (k : FaultKind) (o : Option Nat) : (s.raise i k o).draws = s.draws := rfl
@[simp] theorem State.raise_getV (s : State) (i : Instr) (k : FaultKind) (o : Option Nat) (r : RegIdx) : (s.raise i k o).getV r = s.getV r := rfl
@[simp] theorem State.raise_peek (s : State) (i : Instr) (k : FaultKind) (o : Option Nat) (c : Nat) : (s.raise i k o).peek c = s.peek c := rfl

end Sys2Proof.Machine
end

