-- ==== Sys2Proof/Laws/Framebuffer.lean ====
section
/-! SUPPORT. What the framebuffer operations do, pixel by pixel (46_display.md R150 to R154): the packing is a bijection, a
toggle flips one pixel, and a sprite's pixels are distinct (R159). -/

namespace Sys2Proof.Machine

theorem pixelBit_lt (p : Pixel) : pixelBit p < 8 := by unfold pixelBit; omega

/-- Two pixels share byte and bit only when they are the same pixel (R151). -/
theorem pixel_eq_of_byte_bit {p q : Pixel} (h1 : pixelByte p = pixelByte q) (h2 : pixelBit p = pixelBit q) : p = q := by
  obtain ⟨⟨c, hc⟩, ⟨r, hr⟩⟩ := p
  obtain ⟨⟨c', hc'⟩, ⟨r', hr'⟩⟩ := q
  simp only [pixelByte, pixelBit, Fin.mk.injEq] at h1 h2
  have : c = c' ∧ r = r' := by omega
  obtain ⟨rfl, rfl⟩ := this
  rfl

/-- Toggling a pixel flips it and leaves every other pixel alone (R151). -/
theorem fbPixel_fbToggle (fb : Framebuffer) (p q : Pixel) :
    fbPixel (fbToggle fb p) q = if q = p then !fbPixel fb p else fbPixel fb q := by
  have hb := pixelBit_lt p
  have hq := pixelBit_lt q
  unfold fbPixel fbToggle
  by_cases hby : pixelByte p = pixelByte q
  · have h1 : (fb.set (pixelByte p).val (fb[pixelByte p] ^^^ (1#8 <<< pixelBit p)))[pixelByte q]
        = fb[pixelByte p] ^^^ (1#8 <<< pixelBit p) := by
      simp [← hby]
    have h2 : fb[pixelByte p] = fb[pixelByte q] := by simp only [hby]
    rw [h1, BitVec.getLsbD_xor]
    by_cases hpq : q = p
    · subst hpq
      simp [hb]
    · have hbit : pixelBit q ≠ pixelBit p := fun e => hpq (pixel_eq_of_byte_bit hby.symm e)
      rw [if_neg hpq, h2]
      have : (1#8 <<< pixelBit p).getLsbD (pixelBit q) = false := by
        simp only [BitVec.getLsbD_shiftLeft, BitVec.getLsbD_one]
        by_cases hlt : pixelBit q < pixelBit p
        · simp [hlt]
        · simp; intros; omega
      rw [this]; simp
  · have hpq : q ≠ p := fun e => hby (by rw [e])
    rw [if_neg hpq]
    have hne : (pixelByte p).val ≠ (pixelByte q).val := fun e => hby (Fin.ext e)
    simp [Vector.getElem_set_ne, hne]

/-- Toggling a list of distinct pixels flips exactly the pixels of the list. -/
theorem fbPixel_foldl_fbToggle (ps : List Pixel) (fb : Framebuffer) (h : ps.Nodup) (q : Pixel) :
    fbPixel (ps.foldl fbToggle fb) q = (fbPixel fb q ^^ decide (q ∈ ps)) := by
  induction ps generalizing fb with
  | nil => simp
  | cons p ps ih =>
    rw [List.nodup_cons] at h
    rw [List.foldl_cons, ih _ h.2, fbPixel_fbToggle]
    by_cases hqp : q = p
    · subst hqp; simp [h.1]
    · simp [hqp]

/-- A bitmap is its pixels. -/
theorem fb_ext {f g : Framebuffer} (h : ∀ p, fbPixel f p = fbPixel g p) : f = g := by
  apply Vector.ext
  intro i hi
  apply BitVec.eq_of_getLsbD_eq
  intro k hk
  have := h (⟨(i % 8) * 8 + (7 - k), by omega⟩, ⟨i / 8, by omega⟩)
  unfold fbPixel at this
  have e1 : pixelByte (⟨(i % 8) * 8 + (7 - k), by omega⟩, ⟨i / 8, by omega⟩) = ⟨i, hi⟩ := by
    simp [pixelByte]; omega
  have e2 : pixelBit (⟨(i % 8) * 8 + (7 - k), by omega⟩, ⟨i / 8, by omega⟩) = k := by
    simp [pixelBit]; omega
  simp only [e1, e2] at this
  exact this

theorem mem_spriteRowPixels {x y : Byte} {r : Nat} {b : Byte} {q : Pixel} :
    q ∈ spriteRowPixels x y r b ↔ ∃ j < 8, b.getLsbD (7 - j) = true ∧ q = spritePixel x y r j := by
  simp only [spriteRowPixels, List.mem_map, List.mem_filter, List.mem_range]
  constructor
  · rintro ⟨j, ⟨h1, h2⟩, rfl⟩; exact ⟨j, h1, h2, rfl⟩
  · rintro ⟨j, h1, h2, rfl⟩; exact ⟨j, ⟨h1, h2⟩, rfl⟩

theorem mem_spritePixelsFrom {x y : Byte} (bs : List Byte) {r : Nat} {q : Pixel} :
    q ∈ spritePixelsFrom x y r bs ↔
      ∃ k, ∃ h : k < bs.length, ∃ j < 8, bs[k].getLsbD (7 - j) = true ∧ q = spritePixel x y (r + k) j := by
  induction bs generalizing r with
  | nil => simp [spritePixelsFrom]
  | cons b bs ih =>
    simp only [spritePixelsFrom, List.mem_append, mem_spriteRowPixels, ih]
    constructor
    · rintro (⟨j, h1, h2, h3⟩ | ⟨k, hk, j, h1, h2, h3⟩)
      · exact ⟨0, by simp, j, h1, h2, h3⟩
      · exact ⟨k + 1, by simpa using hk, j, h1, by simpa using h2, by rw [h3]; congr 1; omega⟩
    · rintro ⟨k, hk, j, h1, h2, h3⟩
      cases k with
      | zero => exact .inl ⟨j, h1, by simpa using h2, h3⟩
      | succ k => exact .inr ⟨k, by simpa using hk, j, h1, by simpa using h2, by rw [h3]; congr 1; omega⟩

/-- The pixels a sprite touches: for each set bit of each row, its place (R153). -/
theorem mem_spritePixels {x y : Byte} {bs : List Byte} {q : Pixel} :
    q ∈ spritePixels x y bs ↔
      ∃ k, ∃ h : k < bs.length, ∃ j < 8, bs[k].getLsbD (7 - j) = true ∧ q = spritePixel x y k j := by
  simp [spritePixels, mem_spritePixelsFrom]

theorem spritePixel_inj {x y : Byte} {r r' j j' : Nat} (hr : r < r' + 32) (hr' : r' < r + 32) (hj : j < 8) (hj' : j' < 8)
    (h : spritePixel x y r j = spritePixel x y r' j') : r = r' ∧ j = j' := by
  simp only [spritePixel, Prod.mk.injEq, Fin.ext_iff, Fin.ofNat] at h
  omega

theorem spriteRowPixels_nodup (x y : Byte) (r : Nat) (b : Byte) : (spriteRowPixels x y r b).Nodup := by
  unfold spriteRowPixels
  rw [List.Nodup, List.pairwise_map]
  have h := (List.nodup_range (n := 8)).filter (fun j => b.getLsbD (7 - j))
  refine List.Pairwise.imp_of_mem ?_ h
  intro j j' hj hj' hne he
  simp only [List.mem_filter, List.mem_range] at hj hj'
  exact hne (spritePixel_inj (by omega) (by omega) hj.1 hj'.1 he).2

/-- A sprite never overlaps itself: its pixels are distinct (R159). -/
theorem spritePixelsFrom_nodup {x y : Byte} (bs : List Byte) (r : Nat) (h : bs.length ≤ 32) :
    (spritePixelsFrom x y r bs).Nodup := by
  induction bs generalizing r with
  | nil => simp [spritePixelsFrom]
  | cons b bs ih =>
    simp only [List.length_cons] at h
    rw [spritePixelsFrom, List.nodup_append]
    refine ⟨spriteRowPixels_nodup x y r b, ih _ (by omega), ?_⟩
    intro p hp q hq he
    subst he
    obtain ⟨j, hj, -, e1⟩ := mem_spriteRowPixels.1 hp
    obtain ⟨k, hk, j', hj', -, e2⟩ := (mem_spritePixelsFrom bs).1 hq
    have := spritePixel_inj (by omega) (by omega) hj hj' (e1.symm.trans e2)
    omega

theorem spritePixels_nodup {x y : Byte} {bs : List Byte} (h : bs.length ≤ 32) : (spritePixels x y bs).Nodup :=
  spritePixelsFrom_nodup bs 0 h

end Sys2Proof.Machine
end

