-- ==== Sys2Proof/Laws/Memory.lean ====
section
/-! SUPPORT. What the memory operations do: read after write, that every operation keeps the canonical form, that equal
memories are equal data, and the range check before a multi-byte access (20_memory.md R42 to R44). -/

namespace Sys2Proof.Machine

/-! ### Reads after writes -/

theorem listed_insert (m : Memory) (a c : Nat) (b : Byte) :
    Memory.listed (Memory.insert m a b) c = if c = a then some b else Memory.listed m c := by
  induction m with
  | nil => simp only [Memory.insert, Memory.listed]; grind
  | cons e m ih =>
    obtain ⟨d, x⟩ := e
    simp only [Memory.insert]
    split
    · simp only [Memory.listed]; grind
    · split
      · simp only [Memory.listed]; grind
      · simp only [Memory.listed, ih]; grind

theorem listed_remove (m : Memory) (a c : Nat) :
    Memory.listed (Memory.remove m a) c = if c = a then none else Memory.listed m c := by
  induction m with
  | nil => simp [Memory.remove, Memory.listed]
  | cons e m ih =>
    obtain ⟨d, x⟩ := e
    simp only [Memory.remove, Memory.listed]
    split
    · rw [ih]; grind
    · simp only [Memory.listed, ih]; grind

/-- A read after a write gives the byte written at the same address, and the old byte at every other one. -/
theorem read_write (cfg : Config) (m : Memory) (a c : Nat) (b : Byte) :
    Memory.read cfg (Memory.write cfg m a b) c = if c = a then b else Memory.read cfg m c := by
  unfold Memory.write Memory.read
  split
  next h => rw [listed_remove]; split <;> simp_all
  · rw [listed_insert]; split <;> simp_all

/-- `State.peek` after `State.poke`. -/
theorem peek_poke (s : State) (a c : Nat) (b : Byte) :
    (s.poke a b).peek c = if c = a then b else s.peek c := read_write s.cfg s.mem a c b

@[simp] theorem peek_poke_same (s : State) (a : Nat) (b : Byte) : (s.poke a b).peek a = b := by simp [peek_poke]

/-- Every byte after a run of bytes is stored. -/
theorem peek_pokeBytes (bs : List Byte) (s : State) (base c : Nat) :
    (s.pokeBytes base bs).peek c =
      if h : base ≤ c ∧ c < base + bs.length then bs[c - base]'(by omega) else s.peek c := by
  induction bs generalizing s base with
  | nil => rw [dif_neg (by simp only [List.length_nil]; omega)]; rfl
  | cons b bs ih =>
    rw [State.pokeBytes, ih]
    simp only [List.length_cons]
    by_cases h1 : base + 1 ≤ c ∧ c < base + 1 + bs.length
    · rw [dif_pos h1, dif_pos (by omega)]
      have : c - base = (c - (base + 1)) + 1 := by omega
      simp [this]
    · rw [dif_neg h1, peek_poke]
      by_cases h2 : c = base
      · subst h2; simp
      · rw [if_neg h2, dif_neg (by omega)]

/-- Storing bytes touches nothing but memory. -/
theorem pokeBytes_only (bs : List Byte) (s : State) (base : Nat) :
    ∃ m, s.pokeBytes base bs = { s with mem := m } := by
  induction bs generalizing s base with
  | nil => exact ⟨s.mem, rfl⟩
  | cons b bs ih =>
    obtain ⟨m, hm⟩ := ih (s.poke base b) (base + 1)
    exact ⟨m, by rw [State.pokeBytes, hm]; rfl⟩

/-! Storing bytes, field by field. -/

@[simp] theorem pokeBytes_status (s : State) (base : Nat) (bs : List Byte) : (s.pokeBytes base bs).status = s.status := by
  obtain ⟨m, hm⟩ := pokeBytes_only bs s base; rw [hm]

@[simp] theorem pokeBytes_v (s : State) (base : Nat) (bs : List Byte) : (s.pokeBytes base bs).v = s.v := by
  obtain ⟨m, hm⟩ := pokeBytes_only bs s base; rw [hm]

@[simp] theorem pokeBytes_i (s : State) (base : Nat) (bs : List Byte) : (s.pokeBytes base bs).i = s.i := by
  obtain ⟨m, hm⟩ := pokeBytes_only bs s base; rw [hm]

@[simp] theorem pokeBytes_pc (s : State) (base : Nat) (bs : List Byte) : (s.pokeBytes base bs).pc = s.pc := by
  obtain ⟨m, hm⟩ := pokeBytes_only bs s base; rw [hm]

@[simp] theorem pokeBytes_stack (s : State) (base : Nat) (bs : List Byte) : (s.pokeBytes base bs).stack = s.stack := by
  obtain ⟨m, hm⟩ := pokeBytes_only bs s base; rw [hm]

@[simp] theorem pokeBytes_sp (s : State) (base : Nat) (bs : List Byte) : (s.pokeBytes base bs).sp = s.sp := by
  obtain ⟨m, hm⟩ := pokeBytes_only bs s base; rw [hm]

@[simp] theorem pokeBytes_dt (s : State) (base : Nat) (bs : List Byte) : (s.pokeBytes base bs).dt = s.dt := by
  obtain ⟨m, hm⟩ := pokeBytes_only bs s base; rw [hm]

@[simp] theorem pokeBytes_st (s : State) (base : Nat) (bs : List Byte) : (s.pokeBytes base bs).st = s.st := by
  obtain ⟨m, hm⟩ := pokeBytes_only bs s base; rw [hm]

@[simp] theorem pokeBytes_fb (s : State) (base : Nat) (bs : List Byte) : (s.pokeBytes base bs).fb = s.fb := by
  obtain ⟨m, hm⟩ := pokeBytes_only bs s base; rw [hm]

@[simp] theorem pokeBytes_cfg (s : State) (base : Nat) (bs : List Byte) : (s.pokeBytes base bs).cfg = s.cfg := by
  obtain ⟨m, hm⟩ := pokeBytes_only bs s base; rw [hm]

@[simp] theorem pokeBytes_draws (s : State) (base : Nat) (bs : List Byte) : (s.pokeBytes base bs).draws = s.draws := by
  obtain ⟨m, hm⟩ := pokeBytes_only bs s base; rw [hm]

@[simp] theorem pokeBytes_getV (s : State) (base : Nat) (bs : List Byte) (r : RegIdx) :
    (s.pokeBytes base bs).getV r = s.getV r := by
  simp [State.getV]

@[simp] theorem peekBytes_length (n : Nat) (s : State) (base : Nat) : (s.peekBytes base n).length = n := by
  induction n generalizing base with
  | zero => rfl
  | succ n ih => simp [State.peekBytes, ih]

theorem peekBytes_getElem (n : Nat) (s : State) (base k : Nat) (h : k < (s.peekBytes base n).length) :
    (s.peekBytes base n)[k] = s.peek (base + k) := by
  induction n generalizing base k with
  | zero => simp at h
  | succ n ih =>
    cases k with
    | zero => simp [State.peekBytes]
    | succ k =>
      simp only [State.peekBytes, List.getElem_cons_succ]
      rw [ih]
      congr 1; omega

/-! ### The canonical form -/

theorem mem_insert {m : Memory} {a : Nat} {b : Byte} {c : Host.Cell} (h : c ∈ Memory.insert m a b) :
    c = (a, b) ∨ c ∈ m := by
  induction m with
  | nil => simpa [Memory.insert] using h
  | cons e m ih =>
    obtain ⟨d, x⟩ := e
    simp only [Memory.insert] at h
    grind

theorem insert_pairwise {m : Memory} (a : Nat) (b : Byte) (h : m.Pairwise (fun c d => c.1 < d.1)) :
    (Memory.insert m a b).Pairwise (fun c d => c.1 < d.1) := by
  induction m with
  | nil => simp [Memory.insert]
  | cons e m ih =>
    obtain ⟨d, x⟩ := e
    rw [List.pairwise_cons] at h
    simp only [Memory.insert]
    split
    · rw [List.pairwise_cons, List.pairwise_cons]
      refine ⟨?_, h⟩
      intro c hc
      rcases List.mem_cons.1 hc with rfl | hc
      · assumption
      · have := h.1 c hc; simp at this ⊢; omega
    · split
      · rw [List.pairwise_cons]
        refine ⟨?_, h.2⟩
        intro c hc
        have := h.1 c hc; simp at this ⊢; omega
      · rw [List.pairwise_cons]
        refine ⟨?_, ih h.2⟩
        intro c hc
        rcases mem_insert hc with rfl | hc
        · simp; omega
        · exact h.1 c hc

theorem remove_sublist (m : Memory) (a : Nat) : (Memory.remove m a).Sublist m := by
  induction m with
  | nil => exact List.Sublist.slnil
  | cons e m ih =>
    obtain ⟨d, x⟩ := e
    simp only [Memory.remove]
    split
    · exact ih.cons _
    · exact ih.cons_cons _

/-- Writing a byte inside the address space keeps the canonical form. -/
theorem write_wf {cfg : Config} {m : Memory} (h : Memory.wf cfg m) {a : Nat} (ha : a < memSize) (b : Byte) :
    Memory.wf cfg (Memory.write cfg m a b) := by
  unfold Memory.write
  split
  · exact ⟨h.1.sublist (remove_sublist m a), fun c hc => h.2 c ((remove_sublist m a).subset hc)⟩
  next hb =>
    refine ⟨insert_pairwise a b h.1, fun c hc => ?_⟩
    rcases mem_insert hc with rfl | hc
    · exact ⟨ha, hb⟩
    · exact h.2 c hc

theorem poke_wf {s : State} (h : Memory.wf s.cfg s.mem) {a : Nat} (ha : a < memSize) (b : Byte) :
    Memory.wf (s.poke a b).cfg (s.poke a b).mem := write_wf h ha b

/-- Storing bytes inside the address space keeps the canonical form. -/
theorem pokeBytes_wf (bs : List Byte) {s : State} {base : Nat} (h : Memory.wf s.cfg s.mem)
    (hb : base + bs.length ≤ memSize) : Memory.wf (s.pokeBytes base bs).cfg (s.pokeBytes base bs).mem := by
  induction bs generalizing s base with
  | nil => exact h
  | cons b bs ih =>
    simp only [List.length_cons] at hb
    exact ih (poke_wf h (by omega) b) (by omega)

theorem reset_mem_wf : Memory.wf State.reset.cfg State.reset.mem := by
  simp [State.reset, Memory.wf]

/-! ### The range check -/

/-- No range fault: every address of the range is in range. -/
theorem rangeFault_eq_none (base n : Nat) : rangeFault base n = none ↔ ∀ k < n, base + k ≤ 0xFFF := by
  unfold rangeFault
  split
  next h => simp only [reduceCtorEq, false_iff]; intro hk; have := hk (n - 1) (by omega); omega
  next h => simp only [true_iff]; intro k hk; omega

/-- A range fault names `max base 0x1000`, and there is a byte to access out of range (R134, R157). -/
theorem rangeFault_eq_some {base n a : Nat} (h : rangeFault base n = some a) :
    0 < n ∧ base + n - 1 > 0xFFF ∧ a = max base 0x1000 := by
  unfold rangeFault at h
  split at h
  next hc => exact ⟨hc.1, hc.2, by simpa using h.symm⟩
  · cases h

/-! ### Fetch -/

theorem fetch_eq_ok {s : State} {a : Nat} {w : Word} :
    s.fetch a = .ok w ↔ a ≤ 0xFFE ∧ w = wordOfBytes (s.peek a) (s.peek (a + 1)) := by
  unfold State.fetch
  split
  · simp; omega
  · split
    · simp; omega
    · constructor
      · intro h; cases h; exact ⟨by omega, rfl⟩
      · rintro ⟨_, rfl⟩; rfl

theorem fetch_eq_error {s : State} {a e : Nat} : s.fetch a = .error e ↔ 0xFFF ≤ a ∧ e = max a 0x1000 := by
  unfold State.fetch
  split
  · simp only [Except.error.injEq]; omega
  · split
    · simp only [Except.error.injEq]; omega
    · simp; omega

end Sys2Proof.Machine
end

