-- ==== Sys2Proof/Laws/PerInstr.lean ====
section
/-! SUPPORT. A statement about every instruction as syntax, one lemma per constructor: its word is one of its own row of the opcode
map (30_encoding.md R62). -/

namespace Sys2Proof.Laws.RowMatches

open Sys2Proof Sys2Proof.Machine

/-- The place of an instruction's row in `opcodeRows`; none for SYS, which has the words no row claims. -/
def rowOf : Instr → Option Nat
  | .sys _ _ => none
  | .cls => some 0
  | .ret => some 1
  | .jp _ => some 2
  | .call _ => some 3
  | .se _ _ => some 4
  | .sne _ _ => some 5
  | .seReg _ _ => some 6
  | .ld _ _ => some 7
  | .add _ _ => some 8
  | .ldReg _ _ => some 9
  | .or _ _ => some 10
  | .and _ _ => some 11
  | .xor _ _ => some 12
  | .addReg _ _ => some 13
  | .subReg _ _ => some 14
  | .shr _ _ => some 15
  | .subn _ _ => some 16
  | .shl _ _ => some 17
  | .sneReg _ _ => some 18
  | .ldI _ => some 19
  | .jpReg _ => some 20
  | .rnd _ _ => some 21
  | .drw _ _ _ => some 22
  | .skp _ => some 23
  | .sknp _ => some 24
  | .ldDt _ => some 25
  | .ldK _ => some 26
  | .ldDtSet _ => some 27
  | .ldStSet _ => some 28
  | .addI _ => some 29
  | .ldF _ => some 30
  | .ldB _ => some 31
  | .ldIReg _ => some 32
  | .ldRegI _ => some 33

/-- A well-formed instruction's word is one of its row's: under the row's mask it equals the row's value (R62). A well-formed SYS
holds a word of R63. -/
def Statement (i : Instr) : Prop :=
  i.wf = true →
    match rowOf i with
    | some k => ∃ h : k < opcodeRows.length, encode i &&& opcodeRows[k].mask = opcodeRows[k].val
    | none => fallbackWord (opOf (encode i)) (nnnOf (encode i)) = true

theorem sys (op : Nibble) (nnn : Addr12) : Statement (.sys op nnn) := fun h => by simpa [rowOf, encode, Instr.wf] using h

theorem cls : Statement .cls := fun _ => ⟨by decide, by decide⟩

theorem ret : Statement .ret := fun _ => ⟨by decide, by decide⟩

theorem jp (nnn : Addr12) : Statement (.jp nnn) :=
  fun _ => ⟨by decide, (word_and_masks _).1.trans (by simp only [encode, opOf_packNNN]; decide)⟩

theorem call (nnn : Addr12) : Statement (.call nnn) :=
  fun _ => ⟨by decide, (word_and_masks _).1.trans (by simp only [encode, opOf_packNNN]; decide)⟩

theorem se (x : RegIdx) (kk : Byte) : Statement (.se x kk) :=
  fun _ => ⟨by decide, (word_and_masks _).1.trans (by simp only [encode, opOf_packXKK]; decide)⟩

theorem sne (x : RegIdx) (kk : Byte) : Statement (.sne x kk) :=
  fun _ => ⟨by decide, (word_and_masks _).1.trans (by simp only [encode, opOf_packXKK]; decide)⟩

theorem seReg (x : RegIdx) (y : RegIdx) : Statement (.seReg x y) :=
  fun _ => ⟨by decide, (word_and_masks _).2.1.trans (by simp only [encode, opOf_packXYN, nOf_packXYN]; decide)⟩

theorem ld (x : RegIdx) (kk : Byte) : Statement (.ld x kk) :=
  fun _ => ⟨by decide, (word_and_masks _).1.trans (by simp only [encode, opOf_packXKK]; decide)⟩

theorem add (x : RegIdx) (kk : Byte) : Statement (.add x kk) :=
  fun _ => ⟨by decide, (word_and_masks _).1.trans (by simp only [encode, opOf_packXKK]; decide)⟩

theorem ldReg (x : RegIdx) (y : RegIdx) : Statement (.ldReg x y) :=
  fun _ => ⟨by decide, (word_and_masks _).2.1.trans (by simp only [encode, opOf_packXYN, nOf_packXYN]; decide)⟩

theorem or (x : RegIdx) (y : RegIdx) : Statement (.or x y) :=
  fun _ => ⟨by decide, (word_and_masks _).2.1.trans (by simp only [encode, opOf_packXYN, nOf_packXYN]; decide)⟩

theorem and (x : RegIdx) (y : RegIdx) : Statement (.and x y) :=
  fun _ => ⟨by decide, (word_and_masks _).2.1.trans (by simp only [encode, opOf_packXYN, nOf_packXYN]; decide)⟩

theorem xor (x : RegIdx) (y : RegIdx) : Statement (.xor x y) :=
  fun _ => ⟨by decide, (word_and_masks _).2.1.trans (by simp only [encode, opOf_packXYN, nOf_packXYN]; decide)⟩

theorem addReg (x : RegIdx) (y : RegIdx) : Statement (.addReg x y) :=
  fun _ => ⟨by decide, (word_and_masks _).2.1.trans (by simp only [encode, opOf_packXYN, nOf_packXYN]; decide)⟩

theorem subReg (x : RegIdx) (y : RegIdx) : Statement (.subReg x y) :=
  fun _ => ⟨by decide, (word_and_masks _).2.1.trans (by simp only [encode, opOf_packXYN, nOf_packXYN]; decide)⟩

theorem shr (x : RegIdx) (y : RegIdx) : Statement (.shr x y) :=
  fun _ => ⟨by decide, (word_and_masks _).2.1.trans (by simp only [encode, opOf_packXYN, nOf_packXYN]; decide)⟩

theorem subn (x : RegIdx) (y : RegIdx) : Statement (.subn x y) :=
  fun _ => ⟨by decide, (word_and_masks _).2.1.trans (by simp only [encode, opOf_packXYN, nOf_packXYN]; decide)⟩

theorem shl (x : RegIdx) (y : RegIdx) : Statement (.shl x y) :=
  fun _ => ⟨by decide, (word_and_masks _).2.1.trans (by simp only [encode, opOf_packXYN, nOf_packXYN]; decide)⟩

theorem sneReg (x : RegIdx) (y : RegIdx) : Statement (.sneReg x y) :=
  fun _ => ⟨by decide, (word_and_masks _).2.1.trans (by simp only [encode, opOf_packXYN, nOf_packXYN]; decide)⟩

theorem ldI (nnn : Addr12) : Statement (.ldI nnn) :=
  fun _ => ⟨by decide, (word_and_masks _).1.trans (by simp only [encode, opOf_packNNN]; decide)⟩

theorem jpReg (nnn : Addr12) : Statement (.jpReg nnn) :=
  fun _ => ⟨by decide, (word_and_masks _).1.trans (by simp only [encode, opOf_packNNN]; decide)⟩

theorem rnd (x : RegIdx) (kk : Byte) : Statement (.rnd x kk) :=
  fun _ => ⟨by decide, (word_and_masks _).1.trans (by simp only [encode, opOf_packXKK]; decide)⟩

theorem drw (x : RegIdx) (y : RegIdx) (n : Nibble) : Statement (.drw x y n) :=
  fun _ => ⟨by decide, (word_and_masks _).1.trans (by simp only [encode, opOf_packXYN]; decide)⟩

theorem skp (x : RegIdx) : Statement (.skp x) :=
  fun _ => ⟨by decide, (word_and_masks _).2.2.trans (by simp only [encode, opOf_packXKK, yOf_packXKK, nOf_packXKK]; decide)⟩

theorem sknp (x : RegIdx) : Statement (.sknp x) :=
  fun _ => ⟨by decide, (word_and_masks _).2.2.trans (by simp only [encode, opOf_packXKK, yOf_packXKK, nOf_packXKK]; decide)⟩

theorem ldDt (x : RegIdx) : Statement (.ldDt x) :=
  fun _ => ⟨by decide, (word_and_masks _).2.2.trans (by simp only [encode, opOf_packXKK, yOf_packXKK, nOf_packXKK]; decide)⟩

theorem ldK (x : RegIdx) : Statement (.ldK x) :=
  fun _ => ⟨by decide, (word_and_masks _).2.2.trans (by simp only [encode, opOf_packXKK, yOf_packXKK, nOf_packXKK]; decide)⟩

theorem ldDtSet (x : RegIdx) : Statement (.ldDtSet x) :=
  fun _ => ⟨by decide, (word_and_masks _).2.2.trans (by simp only [encode, opOf_packXKK, yOf_packXKK, nOf_packXKK]; decide)⟩

theorem ldStSet (x : RegIdx) : Statement (.ldStSet x) :=
  fun _ => ⟨by decide, (word_and_masks _).2.2.trans (by simp only [encode, opOf_packXKK, yOf_packXKK, nOf_packXKK]; decide)⟩

theorem addI (x : RegIdx) : Statement (.addI x) :=
  fun _ => ⟨by decide, (word_and_masks _).2.2.trans (by simp only [encode, opOf_packXKK, yOf_packXKK, nOf_packXKK]; decide)⟩

theorem ldF (x : RegIdx) : Statement (.ldF x) :=
  fun _ => ⟨by decide, (word_and_masks _).2.2.trans (by simp only [encode, opOf_packXKK, yOf_packXKK, nOf_packXKK]; decide)⟩

theorem ldB (x : RegIdx) : Statement (.ldB x) :=
  fun _ => ⟨by decide, (word_and_masks _).2.2.trans (by simp only [encode, opOf_packXKK, yOf_packXKK, nOf_packXKK]; decide)⟩

theorem ldIReg (x : RegIdx) : Statement (.ldIReg x) :=
  fun _ => ⟨by decide, (word_and_masks _).2.2.trans (by simp only [encode, opOf_packXKK, yOf_packXKK, nOf_packXKK]; decide)⟩

theorem ldRegI (x : RegIdx) : Statement (.ldRegI x) :=
  fun _ => ⟨by decide, (word_and_masks _).2.2.trans (by simp only [encode, opOf_packXKK, yOf_packXKK, nOf_packXKK]; decide)⟩

end Sys2Proof.Laws.RowMatches
end

