-- ==== Sys2Proof/Laws/Registers.lean ====
section
/-! SUPPORT. What the register operations do: read after write, the ranges LD_I_REG and LD_REG_I move, the return stack, and
the moves of `pc`. -/

namespace Sys2Proof.Machine

/-! ### General registers -/

/-- A read after a write gives the value written in the same register, and the old value in every other one. -/
theorem getV_setV (s : State) (x y : RegIdx) (b : Byte) :
    (s.setV x b).getV y = if y = x then b else s.getV y := by
  have hx := x.isLt
  have hy := y.isLt
  by_cases h : y = x
  · subst h; simp [State.getV, State.setV]
  · have hn : x.toNat ≠ y.toNat := fun e => h (BitVec.eq_of_toNat_eq e.symm)
    simp [State.getV, State.setV, h, Vector.getElem_set_ne, hn]

@[simp] theorem getV_setV_same (s : State) (x : RegIdx) (b : Byte) : (s.setV x b).getV x = b := by
  simp [getV_setV]

theorem getV_setV_ne (s : State) {x y : RegIdx} (b : Byte) (h : y ≠ x) : (s.setV x b).getV y = s.getV y := by
  simp [getV_setV, h]

theorem getV_setVf (s : State) (y : RegIdx) (b : Byte) :
    (s.setVf b).getV y = if y = vf then b else s.getV y := getV_setV s vf y b

/-- The registers after a range of them is written: `V[k]`, `V[k + 1]`, ... get the bytes, the others stay. -/
theorem getV_setRegs (bs : List Byte) (s : State) (k : Nat) (h : k + bs.length ≤ 16) (r : RegIdx) :
    (s.setRegs k bs).getV r =
      if hr : k ≤ r.toNat ∧ r.toNat < k + bs.length then bs[r.toNat - k]'(by omega) else s.getV r := by
  induction bs generalizing s k with
  | nil => rw [dif_neg (by simp only [List.length_nil]; omega)]; rfl
  | cons b bs ih =>
    simp only [List.length_cons] at h
    have hk : (BitVec.ofNat 4 k).toNat = k := by simp; omega
    rw [State.setRegs, ih _ _ (by omega)]
    by_cases h1 : k + 1 ≤ r.toNat ∧ r.toNat < k + 1 + bs.length
    · rw [dif_pos h1, dif_pos (by simp; omega)]
      have : r.toNat - k = (r.toNat - (k + 1)) + 1 := by omega
      simp [this]
    · rw [dif_neg h1, getV_setV]
      by_cases h2 : r = BitVec.ofNat 4 k
      · have hr : r.toNat = k := by rw [h2, hk]
        rw [if_pos h2, dif_pos (by simp; omega)]
        simp [hr]
      · have hr : r.toNat ≠ k := fun e => h2 (BitVec.eq_of_toNat_eq (by rw [hk, e]))
        rw [if_neg h2, dif_neg (by simp; omega)]

/-- Writing registers touches nothing but registers. -/
theorem setRegs_only (bs : List Byte) (s : State) (k : Nat) :
    ∃ v, s.setRegs k bs = { s with v := v } := by
  induction bs generalizing s k with
  | nil => exact ⟨s.v, rfl⟩
  | cons b bs ih =>
    obtain ⟨v, hv⟩ := ih (s.setV (BitVec.ofNat 4 k) b) (k + 1)
    exact ⟨v, by rw [State.setRegs, hv]; rfl⟩

/-! Writing a range of registers, field by field. -/

@[simp] theorem setRegs_status (s : State) (k : Nat) (bs : List Byte) : (s.setRegs k bs).status = s.status := by
  obtain ⟨m, hm⟩ := setRegs_only bs s k; rw [hm]

@[simp] theorem setRegs_i (s : State) (k : Nat) (bs : List Byte) : (s.setRegs k bs).i = s.i := by
  obtain ⟨m, hm⟩ := setRegs_only bs s k; rw [hm]

@[simp] theorem setRegs_pc (s : State) (k : Nat) (bs : List Byte) : (s.setRegs k bs).pc = s.pc := by
  obtain ⟨m, hm⟩ := setRegs_only bs s k; rw [hm]

@[simp] theorem setRegs_stack (s : State) (k : Nat) (bs : List Byte) : (s.setRegs k bs).stack = s.stack := by
  obtain ⟨m, hm⟩ := setRegs_only bs s k; rw [hm]

@[simp] theorem setRegs_sp (s : State) (k : Nat) (bs : List Byte) : (s.setRegs k bs).sp = s.sp := by
  obtain ⟨m, hm⟩ := setRegs_only bs s k; rw [hm]

@[simp] theorem setRegs_dt (s : State) (k : Nat) (bs : List Byte) : (s.setRegs k bs).dt = s.dt := by
  obtain ⟨m, hm⟩ := setRegs_only bs s k; rw [hm]

@[simp] theorem setRegs_st (s : State) (k : Nat) (bs : List Byte) : (s.setRegs k bs).st = s.st := by
  obtain ⟨m, hm⟩ := setRegs_only bs s k; rw [hm]

@[simp] theorem setRegs_mem (s : State) (k : Nat) (bs : List Byte) : (s.setRegs k bs).mem = s.mem := by
  obtain ⟨m, hm⟩ := setRegs_only bs s k; rw [hm]

@[simp] theorem setRegs_fb (s : State) (k : Nat) (bs : List Byte) : (s.setRegs k bs).fb = s.fb := by
  obtain ⟨m, hm⟩ := setRegs_only bs s k; rw [hm]

@[simp] theorem setRegs_cfg (s : State) (k : Nat) (bs : List Byte) : (s.setRegs k bs).cfg = s.cfg := by
  obtain ⟨m, hm⟩ := setRegs_only bs s k; rw [hm]

@[simp] theorem setRegs_draws (s : State) (k : Nat) (bs : List Byte) : (s.setRegs k bs).draws = s.draws := by
  obtain ⟨m, hm⟩ := setRegs_only bs s k; rw [hm]

@[simp] theorem setRegs_peek (s : State) (k : Nat) (bs : List Byte) (a : Nat) :
    (s.setRegs k bs).peek a = s.peek a := by
  simp [State.peek]

@[simp] theorem regBytes_length (s : State) (n : Nat) : (s.regBytes n).length = n := by simp [State.regBytes]

theorem regBytes_getElem (s : State) (n k : Nat) (h : k < (s.regBytes n).length) :
    (s.regBytes n)[k] = s.getV (BitVec.ofNat 4 k) := by simp [State.regBytes]

theorem mem_regRange {n : Nat} (h : n ≤ 16) (r : RegIdx) : r ∈ regRange n ↔ r.toNat < n := by
  have hr := r.isLt
  simp only [regRange, List.mem_map, List.mem_range]
  constructor
  · rintro ⟨k, hk, rfl⟩
    simp; omega
  · intro hn
    exact ⟨r.toNat, hn, by simp⟩

/-! ### The return stack -/

theorem push_eq_none (s : State) (w : Word) : s.push w = none ↔ s.sp.val = 16 := by
  have := s.sp.isLt
  unfold State.push
  split
  · simp; omega
  · simp; omega

theorem push_eq_some {s t : State} {w : Word} (h : s.push w = some t) :
    ∃ h16 : s.sp.val < 16,
      t = { s with stack := s.stack.set s.sp.val w, sp := ⟨s.sp.val + 1, by omega⟩ } := by
  unfold State.push at h
  split at h
  next h16 => exact ⟨h16, by simpa using h.symm⟩
  · cases h

theorem pop_eq_none (s : State) : s.pop = none ↔ s.sp.val = 0 := by
  unfold State.pop
  split
  · simp; omega
  · simp; omega

theorem pop_eq_some {s t : State} {w : Word} (h : s.pop = some (w, t)) :
    ∃ h0 : 0 < s.sp.val,
      w = s.stack[s.sp.val - 1]'(by omega) ∧ t = { s with sp := ⟨s.sp.val - 1, by omega⟩ } := by
  unfold State.pop at h
  split at h
  next h0 =>
    simp only [Option.some.injEq, Prod.mk.injEq] at h
    exact ⟨h0, h.1.symm, h.2.symm⟩
  · cases h

/-! ### Skips and faults -/

/-- A skip changes `pc` alone. -/
theorem skipIf_eq (s : State) (c : Bool) : s.skipIf c = { s with pc := if c then s.pc + 2 else s.pc } := by
  cases c <;> rfl

/-! A skip, field by field. -/

@[simp] theorem skipIf_status (s : State) (c : Bool) : (s.skipIf c).status = s.status := by
  cases c <;> rfl

@[simp] theorem skipIf_v (s : State) (c : Bool) : (s.skipIf c).v = s.v := by
  cases c <;> rfl

@[simp] theorem skipIf_i (s : State) (c : Bool) : (s.skipIf c).i = s.i := by
  cases c <;> rfl

@[simp] theorem skipIf_stack (s : State) (c : Bool) : (s.skipIf c).stack = s.stack := by
  cases c <;> rfl

@[simp] theorem skipIf_sp (s : State) (c : Bool) : (s.skipIf c).sp = s.sp := by
  cases c <;> rfl

@[simp] theorem skipIf_dt (s : State) (c : Bool) : (s.skipIf c).dt = s.dt := by
  cases c <;> rfl

@[simp] theorem skipIf_st (s : State) (c : Bool) : (s.skipIf c).st = s.st := by
  cases c <;> rfl

@[simp] theorem skipIf_mem (s : State) (c : Bool) : (s.skipIf c).mem = s.mem := by
  cases c <;> rfl

@[simp] theorem skipIf_fb (s : State) (c : Bool) : (s.skipIf c).fb = s.fb := by
  cases c <;> rfl

@[simp] theorem skipIf_cfg (s : State) (c : Bool) : (s.skipIf c).cfg = s.cfg := by
  cases c <;> rfl

@[simp] theorem skipIf_draws (s : State) (c : Bool) : (s.skipIf c).draws = s.draws := by
  cases c <;> rfl

@[simp] theorem skipIf_pc (s : State) (c : Bool) : (s.skipIf c).pc = if c then s.pc + 2 else s.pc := by
  cases c <;> rfl

@[simp] theorem skipIf_getV (s : State) (c : Bool) (r : RegIdx) : (s.skipIf c).getV r = s.getV r := by
  cases c <;> rfl

@[simp] theorem skipIf_peek (s : State) (c : Bool) (a : Nat) : (s.skipIf c).peek a = s.peek a := by
  cases c <;> rfl

theorem isFaulted_iff (s : State) : s.isFaulted = true ↔ ∃ rec, s.status = .faulted rec := by
  unfold State.isFaulted
  split <;> simp_all

theorem finish_of_running {s : State} (h : s.status = .running) : s.finish = s.ageTimers := by
  simp [State.finish, State.isFaulted, h]

theorem finish_of_faulted {s : State} {rec : FaultRecord} (h : s.status = .faulted rec) : s.finish = s := by
  simp [State.finish, State.isFaulted, h]

/-- A timer's age is one less, with a floor at 0. -/
theorem ageTimer_toNat (t : Byte) : (ageTimer t).toNat = t.toNat - 1 := by
  unfold ageTimer
  split
  · simp_all
  · next h =>
    have : t.toNat ≠ 0 := fun e => h (BitVec.eq_of_toNat_eq (by simpa using e))
    have := t.isLt
    rw [BitVec.toNat_sub]
    simp; omega

theorem keyOf_eq_none (b : Byte) : keyOf b = none ↔ b.toNat > 15 := by
  unfold keyOf; split <;> simp_all

theorem keyOf_eq_some {b : Byte} {k : Key} (h : keyOf b = some k) : b.toNat ≤ 15 ∧ k.toNat = b.toNat := by
  unfold keyOf at h
  split at h
  · cases h
  · simp only [Option.some.injEq] at h
    subst h
    simp only [BitVec.toNat_setWidth]
    omega

/-- Writing VF by SUBN's rule touches nothing but VF. -/
theorem setSubnFlag_eq (s : State) (vx vy : Byte) :
    s.setSubnFlag vx vy =
      if subnCond s.cfg.subnFlagCond vx vy then s.setVf 1
      else if s.cfg.subnVfElse = .clear then s.setVf 0 else s := by
  unfold State.setSubnFlag
  split
  · rfl
  · cases h : s.cfg.subnVfElse <;> simp

/-! SUBN's flag, field by field. -/

@[simp] theorem setSubnFlag_status (s : State) (vx vy : Byte) : (s.setSubnFlag vx vy).status = s.status := by
  rw [setSubnFlag_eq]; repeat' split
  all_goals rfl

@[simp] theorem setSubnFlag_i (s : State) (vx vy : Byte) : (s.setSubnFlag vx vy).i = s.i := by
  rw [setSubnFlag_eq]; repeat' split
  all_goals rfl

@[simp] theorem setSubnFlag_pc (s : State) (vx vy : Byte) : (s.setSubnFlag vx vy).pc = s.pc := by
  rw [setSubnFlag_eq]; repeat' split
  all_goals rfl

@[simp] theorem setSubnFlag_stack (s : State) (vx vy : Byte) : (s.setSubnFlag vx vy).stack = s.stack := by
  rw [setSubnFlag_eq]; repeat' split
  all_goals rfl

@[simp] theorem setSubnFlag_sp (s : State) (vx vy : Byte) : (s.setSubnFlag vx vy).sp = s.sp := by
  rw [setSubnFlag_eq]; repeat' split
  all_goals rfl

@[simp] theorem setSubnFlag_dt (s : State) (vx vy : Byte) : (s.setSubnFlag vx vy).dt = s.dt := by
  rw [setSubnFlag_eq]; repeat' split
  all_goals rfl

@[simp] theorem setSubnFlag_st (s : State) (vx vy : Byte) : (s.setSubnFlag vx vy).st = s.st := by
  rw [setSubnFlag_eq]; repeat' split
  all_goals rfl

@[simp] theorem setSubnFlag_mem (s : State) (vx vy : Byte) : (s.setSubnFlag vx vy).mem = s.mem := by
  rw [setSubnFlag_eq]; repeat' split
  all_goals rfl

@[simp] theorem setSubnFlag_fb (s : State) (vx vy : Byte) : (s.setSubnFlag vx vy).fb = s.fb := by
  rw [setSubnFlag_eq]; repeat' split
  all_goals rfl

@[simp] theorem setSubnFlag_cfg (s : State) (vx vy : Byte) : (s.setSubnFlag vx vy).cfg = s.cfg := by
  rw [setSubnFlag_eq]; repeat' split
  all_goals rfl

@[simp] theorem setSubnFlag_draws (s : State) (vx vy : Byte) : (s.setSubnFlag vx vy).draws = s.draws := by
  rw [setSubnFlag_eq]; repeat' split
  all_goals rfl

@[simp] theorem setSubnFlag_peek (s : State) (vx vy : Byte) (a : Nat) : (s.setSubnFlag vx vy).peek a = s.peek a := by
  simp [State.peek]

/-- SUBN's flag leaves every register but VF alone. -/
theorem getV_setSubnFlag_ne (s : State) (vx vy : Byte) {r : RegIdx} (h : r ≠ vf) :
    (s.setSubnFlag vx vy).getV r = s.getV r := by
  rw [setSubnFlag_eq]; repeat' split
  all_goals simp [getV_setVf, h]

end Sys2Proof.Machine
end

