-- ==== Sys2Proof/Laws/Step.lean ====
section
/-! SUPPORT. What a step can do, said once (40_step_cycle.md R72 to R79): the execute phase always answers a next state, and a
step of a running machine is either the fault of a failed fetch or the finished execute phase of the fetched word. Beside it the
pixels of a sprite as `SpriteCovers` says them, and the bytes New leaves in memory. -/

namespace Sys2Proof.Machine

/-- Moving `pc` back undoes the advance (R74, R178). -/
@[simp] theorem rewindPc_advancePc (s : State) : s.advancePc.rewindPc = s := by
  simp only [State.advancePc, State.rewindPc, State.setPc, BitVec.add_sub_cancel]

/-- SUBN's flag rule changes the general registers only. -/
theorem setSubnFlag_only (s : State) (vx vy : Byte) : ∃ v, s.setSubnFlag vx vy = { s with v := v } := by
  rw [setSubnFlag_eq]
  split
  · exact ⟨_, rfl⟩
  · split
    · exact ⟨_, rfl⟩
    · exact ⟨s.v, rfl⟩

/-- The execute phase answers a next state for every instruction in every state: no instruction stops the machine (R75). -/
theorem exec_next (i : Instr) (s : State) : ∃ t, exec i s = .next t := by
  cases i <;> simp only [exec] <;>
    simp only [execSys, execCls, execRet, execJp, execCall, execSe, execSne, execSeReg, execLd, execAdd, execLdReg, execOr,
      execAnd, execXor, execAddReg, execSubReg, execShr, execSubn, execShl, execSneReg, execLdI, execJpReg, execRnd, execDrw,
      execSkp, execSknp, execLdDt, execLdK, execLdDtSet, execLdStSet, execAddI, execLdF, execLdB, execLdIReg, execLdRegI] <;>
    (repeat' split) <;> exact ⟨_, rfl⟩

/-- A step of a running machine whose fetch fails takes a fault with no word (R73). -/
theorem step_of_fetch_error {s : State} {a : Nat} (hs : s.status = .running) (hf : s.fetch s.pc.toNat = .error a) :
    step s = .next (s.takeFault .outOfBounds none (some a)) := by
  simp [step, hs, runCycle, hf]

/-- A step of a running machine that fetches `w` finishes the execute phase of `w`, run with `pc` advanced (R72). -/
theorem step_of_fetch_ok {s u : State} {w : Word} (hs : s.status = .running) (hf : s.fetch s.pc.toNat = .ok w)
    (hu : exec (decodeWord w) s.advancePc = .next u) : step s = .next u.finish := by
  simp [step, hs, runCycle, hf, hu, finishOutcome]

/-- Everything a step that answers a next state can have done. -/
theorem step_cases {s t : State} (h : step s = .next t) :
    s.status = .running ∧
      ((∃ a, s.fetch s.pc.toNat = .error a ∧ t = s.takeFault .outOfBounds none (some a)) ∨
        ∃ w u, s.fetch s.pc.toNat = .ok w ∧ exec (decodeWord w) s.advancePc = .next u ∧ t = u.finish) := by
  have hs : s.status = .running := by
    cases hst : s.status <;> simp [step, hst] at h; rfl
  refine ⟨hs, ?_⟩
  cases hf : s.fetch s.pc.toNat with
  | error a =>
    rw [step_of_fetch_error hs hf] at h
    simp only [Host.Outcome.next.injEq] at h
    exact .inl ⟨a, rfl, h.symm⟩
  | ok w =>
    obtain ⟨u, hu⟩ := exec_next (decodeWord w) s.advancePc
    rw [step_of_fetch_ok hs hf hu] at h
    simp only [Host.Outcome.next.injEq] at h
    exact .inr ⟨w, u, rfl, hu, h.symm⟩

/-- A machine that is not running takes no step to a next state (R78, R79). -/
theorem step_of_not_running {s : State} (h : s.status ≠ .running) (t : State) : step s ≠ .next t := by
  intro e; exact h (step_cases e).1

/-- The pixels of a sprite, as a list and as a condition (R153). -/
theorem spriteCovers_iff {x y : Byte} {bs : List Byte} {p : Pixel} : SpriteCovers x y bs p ↔ p ∈ spritePixels x y bs := by
  rw [mem_spritePixels]
  have e : ∀ r j, (p = spritePixel x y r j ↔ p.1.val = (x.toNat + j) % 64 ∧ p.2.val = (y.toNat + r) % 32) := by
    intro r j; simp [spritePixel, Prod.ext_iff, Fin.ext_iff, Fin.ofNat]
  unfold SpriteCovers
  constructor
  · rintro ⟨r, hr, j, hj, h1, h2⟩; exact ⟨r, hr, j, hj, h1, (e _ _).2 h2⟩
  · rintro ⟨r, hr, j, hj, h1, h2⟩; exact ⟨r, hr, j, hj, h1, (e _ _).1 h2⟩

/-- The font's bytes lie from `FONT_BASE` on, five to a digit (R45, R46). -/
theorem unlistedByte_font (cfg : Config) (d : Fin 16) (r : Fin 5) :
    unlistedByte cfg (cfg.fontBase.val + 5 * d.val + r.val) = cfg.font[d][r] := by
  have hd := d.isLt; have hr := r.isLt
  unfold unlistedByte fontByte
  rw [dif_pos (by omega), if_pos (by omega)]
  have e1 : (cfg.fontBase.val + 5 * d.val + r.val - cfg.fontBase.val) / 5 = d.val := by omega
  have e2 : (cfg.fontBase.val + 5 * d.val + r.val - cfg.fontBase.val) % 5 = r.val := by omega
  simp only [e1, e2]
  rfl

/-- Outside the font an address that nothing was stored to holds 0 (R30). -/
theorem unlistedByte_zero (cfg : Config) (a : Nat) (ha : a < cfg.fontBase.val ∨ cfg.fontBase.val + 80 ≤ a) :
    unlistedByte cfg a = 0 := by
  unfold unlistedByte
  split
  · rw [if_neg (by omega)]
  · rfl

end Sys2Proof.Machine
end

