-- ==== Sys2Proof/Tests/Slice0.lean ====
section
/-! SUPPORT. The model's own tests, each about one step or one call: well-formedness, decoding of words written out from
30_encoding.md, the vectors of 95_test_vectors.md (their names stand in the docstrings), and for every obligation with
hypotheses a witness that meets them. -/

namespace Sys2Proof.Tests

open Sys2Proof Sys2Proof.Machine

/-- The state after one step that runs word `w`, if the step answers one. -/
def after (s : State) (w : Word) : Option State :=
  match step (placeWord s w) with
  | .next t => some t
  | .fault _ => none
  | .refused _ => none

/-- The state after one step, if the step answers one. -/
def next (s : State) : Option State :=
  match step s with
  | .next t => some t
  | .fault _ => none
  | .refused _ => none

/-- Bytes placed in memory. -/
def put (s : State) (a : Nat) (bs : List Byte) : State := s.pokeBytes a bs

/-- A machine after reset with the `pc` given. -/
def atPc (a : Word) : State := State.reset.setPc a

/-- A machine after reset with `V1` and `V2` given. -/
def with12 (a b : Byte) : State := (State.reset.setV 1 a).setV 2 b

/-- A machine after reset with `I` given. -/
def withI (a : Word) : State := State.reset.setI a

/-- A machine after reset, ready to draw one row of the byte given at `(x, y)`, which stands in `V0` and `V1`. -/
def sprite (x y b : Byte) : State := put (((withI 0x300).setV 0 x).setV 1 y) 0x300 [b]

/-- A machine after reset with `sp` given and the return addresses 0x206 and 0x40A in the lowest two entries. -/
def withSp (n : Fin 17) : State := { State.reset with sp := n, stack := (State.reset.stack.set 0 0x206).set 1 0x40A }

/-- A machine after reset with other parameters for SUBN. -/
def withSubn (c : SubnFlagCond) (e : SubnVfElse) (s : State) : State :=
  { s with cfg := { defaultConfig with subnFlagCond := c, subnVfElse := e } }

/-- The default parameters with the font moved to 0x050 (vector M8). -/
def movedFont : Config := { defaultConfig with fontBase := 0x50 }

/-! ### Well-formedness: the one check, in each group of R63 -/

theorem test_wf_refuses_family0_cls : Instr.wf (.sys 0x0 0x0E0) = false := by decide
theorem test_wf_refuses_family0_ret : Instr.wf (.sys 0x0 0x0EE) = false := by decide
theorem test_wf_refuses_family1 : Instr.wf (.sys 0x1 0x234) = false := by decide
theorem test_wf_refuses_family5 : Instr.wf (.sys 0x5 0x120) = false := by decide
theorem test_wf_refuses_family8 : Instr.wf (.sys 0x8 0x126) = false := by decide
theorem test_wf_refuses_family9 : Instr.wf (.sys 0x9 0xAB0) = false := by decide
theorem test_wf_refuses_familyE : Instr.wf (.sys 0xE 0x19E) = false := by decide
theorem test_wf_refuses_familyF : Instr.wf (.sys 0xF 0x165) = false := by decide
theorem test_wf_accepts_family0 : Instr.wf (.sys 0x0 0x123) = true := by decide
theorem test_wf_accepts_family5 : Instr.wf (.sys 0x5 0x121) = true := by decide
theorem test_wf_accepts_family8 : Instr.wf (.sys 0x8 0x00F) = true := by decide
theorem test_wf_accepts_family9 : Instr.wf (.sys 0x9 0xAB5) = true := by decide
theorem test_wf_accepts_familyE : Instr.wf (.sys 0xE 0x19F) = true := by decide
theorem test_wf_accepts_familyF : Instr.wf (.sys 0xF 0x166) = true := by decide

/-! ### Decoding: one word per row of R62, bit by bit in the nibbles of its pattern, operands chosen apart from each other -/

theorem test_decode_sys : decodeWord 0b0000_0001_0010_0011#16 = .sys 0x0 0x123 := by decide
theorem test_decode_cls : decodeWord 0b0000_0000_1110_0000#16 = .cls := by decide
theorem test_decode_ret : decodeWord 0b0000_0000_1110_1110#16 = .ret := by decide
theorem test_decode_jp : decodeWord 0b0001_1010_1011_1100#16 = .jp 0xABC := by decide
theorem test_decode_call : decodeWord 0b0010_0011_0000_0001#16 = .call 0x301 := by decide
theorem test_decode_se : decodeWord 0b0011_0001_0000_0101#16 = .se 1 0x05 := by decide
theorem test_decode_sne : decodeWord 0b0100_0001_1010_0101#16 = .sne 1 0xA5 := by decide
theorem test_decode_seReg : decodeWord 0b0101_0011_0100_0000#16 = .seReg 3 4 := by decide
theorem test_decode_ld : decodeWord 0b0110_1010_1111_0001#16 = .ld 0xA 0xF1 := by decide
theorem test_decode_add : decodeWord 0b0111_0001_1000_0010#16 = .add 1 0x82 := by decide
theorem test_decode_ldReg : decodeWord 0b1000_0001_0010_0000#16 = .ldReg 1 2 := by decide
theorem test_decode_or : decodeWord 0b1000_0001_0010_0001#16 = .or 1 2 := by decide
theorem test_decode_and : decodeWord 0b1000_0001_0010_0010#16 = .and 1 2 := by decide
theorem test_decode_xor : decodeWord 0b1000_0001_0010_0011#16 = .xor 1 2 := by decide
theorem test_decode_addReg : decodeWord 0b1000_0001_0010_0100#16 = .addReg 1 2 := by decide
theorem test_decode_subReg : decodeWord 0b1000_0001_0010_0101#16 = .subReg 1 2 := by decide
theorem test_decode_shr : decodeWord 0b1000_0001_0010_0110#16 = .shr 1 2 := by decide
theorem test_decode_subn : decodeWord 0b1000_0001_0010_0111#16 = .subn 1 2 := by decide
theorem test_decode_shl : decodeWord 0b1000_0001_0010_1110#16 = .shl 1 2 := by decide
theorem test_decode_sneReg : decodeWord 0b1001_1010_1011_0000#16 = .sneReg 0xA 0xB := by decide
theorem test_decode_ldI : decodeWord 0b1010_0011_0000_1111#16 = .ldI 0x30F := by decide
theorem test_decode_jpReg : decodeWord 0b1011_0001_0010_0011#16 = .jpReg 0x123 := by decide
theorem test_decode_rnd : decodeWord 0b1100_0010_0000_1111#16 = .rnd 2 0x0F := by decide
theorem test_decode_drw : decodeWord 0b1101_0001_0010_0101#16 = .drw 1 2 5 := by decide
theorem test_decode_skp : decodeWord 0b1110_0001_1001_1110#16 = .skp 1 := by decide
theorem test_decode_sknp : decodeWord 0b1110_0001_1010_0001#16 = .sknp 1 := by decide
theorem test_decode_ldDt : decodeWord 0b1111_0011_0000_0111#16 = .ldDt 3 := by decide
theorem test_decode_ldK : decodeWord 0b1111_0101_0000_1010#16 = .ldK 5 := by decide
theorem test_decode_ldDtSet : decodeWord 0b1111_1010_0001_0101#16 = .ldDtSet 0xA := by decide
theorem test_decode_ldStSet : decodeWord 0b1111_0001_0001_1000#16 = .ldStSet 1 := by decide
theorem test_decode_addI : decodeWord 0b1111_0001_0001_1110#16 = .addI 1 := by decide
theorem test_decode_ldF : decodeWord 0b1111_0001_0010_1001#16 = .ldF 1 := by decide
theorem test_decode_ldB : decodeWord 0b1111_0101_0011_0011#16 = .ldB 5 := by decide
theorem test_decode_ldIReg : decodeWord 0b1111_0011_0101_0101#16 = .ldIReg 3 := by decide
theorem test_decode_ldRegI : decodeWord 0b1111_0001_0110_0101#16 = .ldRegI 1 := by decide

/-- DC4, DC7, DC9, DC10, DC11, DC16, DC18, DC19: one unrecognised word or more of each group of R63. -/
theorem test_decode_fallback :
    decodeWord 0x00E1 = .sys 0x0 0x0E1 ∧ decodeWord 0x5121 = .sys 0x5 0x121 ∧ decodeWord 0x9AB5 = .sys 0x9 0xAB5 ∧
    decodeWord 0x8008 = .sys 0x8 0x008 ∧ decodeWord 0x800F = .sys 0x8 0x00F ∧ decodeWord 0xE19F = .sys 0xE 0x19F ∧
    decodeWord 0xF166 = .sys 0xF 0x166 ∧ decodeWord 0xFFFF = .sys 0xF 0xFFF := by decide

/-- R48: the byte at the lower address is the high one; a lone byte is no instruction (R55). -/
theorem test_decode_bytes :
    decodeBytes [0x61, 0x23, 0x99] = .ok (.ld 1 0x23, [0x99]) ∧ decodeBytes [0x61] = .error .truncated := by
  refine ⟨rfl, rfl⟩

/-- The opcode table's numbering of bits: one word of 16 bits. -/
theorem test_decode_table_word : decodeTableWord 16 0xD125 = some (.drw 1 2 5) := by decide

theorem test_decode_table_word_short : decodeTableWord 8 0x1EE = some .ret := by decide

/-- A placed word runs on the very next step after reset. -/
theorem test_withFetchWord : (next (State.reset.withFetchWord 16 0x6123)).map (fun t => (t.getV 1, t.pc)) = some (0x23, 0x202) := by
  decide

/-- R170. -/
theorem test_fault_codes : (FaultKind.outOfBounds.code, FaultKind.stackUnderflow.code, FaultKind.stackOverflow.code) = (1, 2, 3) := rfl

/-- Lines of the programs P1, P3 and P4 of §3 and of R69. -/
theorem test_disassemble :
    disassemble 0x6A07 = "LD VA, 0x07" ∧ disassemble 0xA300 = "LD_I 0x300" ∧ disassemble 0x00EE = "RET" ∧
    disassemble 0x8014 = "ADD_REG V0, V1" ∧ disassemble 0xD125 = "DRW V1, V2, 0x5" ∧ disassemble 0x8006 = "SHR V0" ∧
    disassemble 0xFFFF = "SYS 0xFFF" := by decide

/-! ### Step, lifecycle (§2.1) -/

/-- S1, S10. -/
theorem test_step_after_reset : (next State.reset).map (fun t => (t.pc, t.status)) = some (0x202, .running) := by decide

/-- S2: an odd `pc`. -/
theorem test_step_odd_pc : (next (put (atPc 0x201) 0x201 [0x61, 0x23])).map (fun t => (t.getV 1, t.pc)) = some (0x23, 0x203) := by
  decide

/-- S3: the last word of memory. -/
theorem test_step_last_word : (next (atPc 0xFFE)).map (fun t => (t.pc, t.status)) = some (0x1000, .running) := by decide

/-- S4: the fetch faults and the timer is not aged. -/
theorem test_step_fetch_fault : (next ((atPc 0x1000).setDt 5)).map (fun t => (t.status, t.pc, t.dt)) =
    some (.faulted { kind := .outOfBounds, pc := 0x1000, word := none, info := some 0x1000 }, 0x1000, 5) := by decide

/-- S5: the second byte is out of range. -/
theorem test_step_fetch_fault_second_byte : (next (atPc 0xFFF)).map (fun t => (t.status, t.pc)) =
    some (.faulted { kind := .outOfBounds, pc := 0xFFF, word := none, info := some 0x1000 }, 0xFFF) := by decide

/-- S6: the fault is reported again. -/
theorem test_step_faulted (rec : FaultRecord) :
    step { State.reset with status := .faulted rec } = .fault (.alreadyFaulted rec) := rfl

/-- S7: not loaded. -/
theorem test_step_unloaded :
    step (State.new defaultConfig) = .refused .notLoaded ∧ (State.new defaultConfig).stepResult = .refusedNotLoaded :=
  ⟨rfl, rfl⟩

/-- S8: one byte too many. -/
theorem test_load_too_large : (State.new defaultConfig).load (List.replicate 3585 0) = .outOfBounds := by
  simp only [State.load, State.new]
  rw [if_pos (by rw [List.length_replicate]; decide)]

/-- S9: the largest ROM; its last byte is the last of memory. -/
theorem test_load_largest (rom : List Byte) (h : rom.length = 3584) : ∃ t, (State.new defaultConfig).load rom = .loaded t ∧
    t.peek 0xFFF = rom[3583] ∧ t.pc = 0x200 ∧ t.status = .running := by
  refine ⟨_, by simp only [State.load, State.new]; rw [if_neg (by rw [h]; decide)], ?_, rfl, rfl⟩
  show ((State.new defaultConfig).pokeBytes romBase rom).peek 0xFFF = _
  rw [peek_pokeBytes, dif_pos (by rw [h]; decide)]
  rfl

/-- A ROM of that length. -/
theorem test_load_largest_exists : (List.replicate 3584 (0xAB : Byte)).length = 3584 := List.length_replicate

/-- S11: the other timer ages under any instruction. -/
theorem test_timer_ages : (after (State.reset.setSt 3) 0x6005).map (fun t => (t.getV 0, t.pc, t.dt, t.st)) =
    some (5, 0x202, 0, 2) := by decide

/-! ### Flow (§2.3) -/

/-- F1. -/
theorem test_call_pushes : (after (atPc 0x204) 0x2300).map (fun t => (t.stack[0], t.sp, t.pc)) =
    some (0x206, 1, 0x300) := by decide

/-- F2. -/
theorem test_call_overflow : (after (withSp 16) 0x2300).map (fun t => (t.status, t.sp, t.pc)) =
    some (.faulted { kind := .stackOverflow, pc := 0x200, word := some 0x2300, info := none }, 16, 0x200) := by decide

/-- F4. -/
theorem test_ret_underflow : (after (withSp 0) 0x00EE).map (fun t => (t.status, t.sp, t.pc)) =
    some (.faulted { kind := .stackUnderflow, pc := 0x200, word := some 0x00EE, info := none }, 0, 0x200) := by decide

/-- F5; the popped entry is kept (R26). -/
theorem test_ret_pops : (after (withSp 2) 0x00EE).map (fun t => (t.sp, t.pc, t.stack[1])) =
    some (1, 0x40A, 0x40A) := by decide

/-- F7: an odd target. -/
theorem test_jp : (after State.reset 0x11FF).map (fun t => (t.pc, t.status)) =
    some (0x1FF, .running) := by decide

/-- F9: no reduction to 12 bits. -/
theorem test_jpReg : (after (State.reset.setV 0 0x20) 0xBFF0).map (fun t => t.pc) =
    some 0x1010 := by decide

/-- F8, DC13: register V0, whatever bits 11:8 hold. -/
theorem test_jpReg_uses_v0 : (after ((State.reset.setV 0 4).setV 3 0x70) 0xB300).map (fun t => t.pc) =
    some 0x304 := by decide

/-- F11. -/
theorem test_sys : (after State.reset 0x0ABC).map (fun t => (t.pc, t.status, t.mem)) =
    some (0x202, .running, [(0x200, 0x0A), (0x201, 0xBC)]) := by decide

/-! ### Skips (§2.4) -/

/-- K1. -/
theorem test_se : (after (with12 5 0) 0x3105).map (fun t => t.pc) =
    some 0x204 := by decide

/-- K2. -/
theorem test_se_not : (after (with12 4 0) 0x3105).map (fun t => t.pc) =
    some 0x202 := by decide

/-- K4. -/
theorem test_sne : (after (with12 4 0) 0x4105).map (fun t => t.pc) =
    some 0x204 := by decide

/-- K3. -/
theorem test_sne_not : (after (with12 5 0) 0x4105).map (fun t => t.pc) =
    some 0x202 := by decide

/-- K5. -/
theorem test_seReg : (after ((State.reset.setV 3 0x7F).setV 4 0x7F) 0x5340).map (fun t => t.pc) =
    some 0x204 := by decide

/-- K6. -/
theorem test_seReg_not : (after ((State.reset.setV 3 1).setV 4 2) 0x5340).map (fun t => t.pc) =
    some 0x202 := by decide

/-- K8. -/
theorem test_seReg_fallback : (after ((State.reset.setV 3 9).setV 4 9) 0x5341).map (fun t => t.pc) =
    some 0x202 := by decide

/-- K9. -/
theorem test_sneReg : (after ((State.reset.setV 0 1).setV 1 2) 0x9010).map (fun t => t.pc) =
    some 0x204 := by decide

/-- K10. -/
theorem test_sneReg_self : (after State.reset 0x9000).map (fun t => t.pc) =
    some 0x202 := by decide

/-! ### Register loads and arithmetic (§2.5) -/

/-- A1. -/
theorem test_ld : (after State.reset 0x6AFF).map (fun t => (t.getV 0xA, t.pc)) =
    some (0xFF, 0x202) := by decide

/-- A2. -/
theorem test_add : (after ((with12 0xFF 0).setVf 0x55) 0x7101).map (fun t => (t.getV 1, t.getV vf)) =
    some (0x00, 0x55) := by decide

/-- A3. -/
theorem test_add_vf : (after (State.reset.setVf 1) 0x7FFF).map (fun t => t.getV vf) =
    some 0x00 := by decide

/-- A4. -/
theorem test_ldReg : (after (with12 0 0x33) 0x8120).map (fun t => (t.getV 1, t.getV 2)) =
    some (0x33, 0x33) := by decide

/-- A5. -/
theorem test_or : (after ((with12 0xF0 0x0F).setVf 0x77) 0x8121).map (fun t => (t.getV 1, t.getV vf)) =
    some (0xFF, 0x77) := by decide

/-- A6. -/
theorem test_and : (after ((with12 0xF0 0x3C).setVf 0x77) 0x8122).map (fun t => (t.getV 1, t.getV vf)) =
    some (0x30, 0x77) := by decide

/-- A7. -/
theorem test_xor : (after ((with12 0xF0 0x3C).setVf 0x77) 0x8123).map (fun t => (t.getV 1, t.getV vf)) =
    some (0xCC, 0x77) := by decide

/-- A10. -/
theorem test_addReg : (after (with12 0x80 0x80) 0x8124).map (fun t => (t.getV 1, t.getV vf)) =
    some (0x00, 1) := by decide

/-- A14: the carry overwrites the sum. -/
theorem test_addReg_vf : (after ((with12 0x20 0).setVf 0xF0) 0x8F14).map (fun t => t.getV vf) =
    some 1 := by decide

/-- A18. -/
theorem test_subReg : (after (with12 0x10 0x30) 0x8125).map (fun t => (t.getV 1, t.getV vf)) =
    some (0xE0, 0) := by decide

/-- A19. -/
theorem test_subReg_equal : (after (with12 0x42 0x42) 0x8125).map (fun t => (t.getV 1, t.getV vf)) =
    some (0x00, 1) := by decide

/-- A27: `y` is ignored. -/
theorem test_shr : (after (with12 0x21 0xFF) 0x8126).map (fun t => (t.getV 1, t.getV 2, t.getV vf)) =
    some (0x10, 0xFF, 1) := by decide

/-- A28. -/
theorem test_shr_vf : (after (State.reset.setVf 3) 0x8F06).map (fun t => t.getV vf) =
    some 0 := by decide

/-- A30. -/
theorem test_subn : (after (with12 0x10 0x30) 0x8127).map (fun t => (t.getV 1, t.getV vf)) =
    some (0x20, 1) := by decide

/-- A32. -/
theorem test_subn_keeps : (after ((with12 0x30 0x10).setVf 7) 0x8127).map (fun t => (t.getV 1, t.getV vf)) =
    some (0xE0, 7) := by decide

/-- A33: strict. -/
theorem test_subn_equal : (after ((with12 0x42 0x42).setVf 9) 0x8127).map (fun t => (t.getV 1, t.getV vf)) =
    some (0x00, 9) := by decide

/-- A38: what is kept with `x = 0xF` is the result. -/
theorem test_subn_vf_kept : (after ((with12 0x10 0).setVf 0x30) 0x8F17).map (fun t => t.getV vf) =
    some 0xE0 := by decide

/-- A34. -/
theorem test_subn_clear : (after (withSubn .vyGtVx .clear ((with12 0x30 0x10).setVf 7)) 0x8127).map (fun t => (t.getV 1, t.getV vf)) =
    some (0xE0, 0) := by decide

/-- A35. -/
theorem test_subn_reversed : (after (withSubn .vxGtVy .keep (with12 0x10 0x30)) 0x8127).map (fun t => (t.getV 1, t.getV vf)) =
    some (0x20, 0) := by decide

/-- A36. -/
theorem test_subn_reversed_set : (after (withSubn .vxGtVy .keep (with12 0x30 0x10)) 0x8127).map (fun t => (t.getV 1, t.getV vf)) =
    some (0xE0, 1) := by decide

/-- A40. -/
theorem test_shl : (after (with12 0x81 0) 0x810E).map (fun t => (t.getV 1, t.getV vf)) =
    some (0x02, 1) := by decide

/-- A43. -/
theorem test_shl_vf : (after (State.reset.setVf 0x80) 0x8F0E).map (fun t => t.getV vf) =
    some 2 := by decide

/-- A45, A47: for every sample. -/
theorem test_rnd : ∃ t, exec (.rnd 2 0x0F) State.reset = .next t ∧ t.getV 2 = 0x0F &&& Config.randomByte 0 ∧ t.draws = 1 :=
  ⟨_, rfl, rfl, rfl⟩

/-- A46: for every sample. -/
theorem test_rnd_mask_zero : ∃ t, exec (.rnd 2 0x00) State.reset = .next t ∧ t.getV 2 = 0 ∧ t.draws = 1 :=
  ⟨_, rfl, by rw [getV_setV]; simp, rfl⟩

/-! ### Index register and memory (§2.6) -/

/-- M1. -/
theorem test_ldI : (after State.reset 0xA123).map (fun t => t.i) =
    some 0x0123 := by decide

/-- M2. -/
theorem test_addI : (after (((withI 0xFFE).setV 0 5).setVf 9) 0xF01E).map (fun t => (t.i, t.getV vf)) =
    some (0x1003, 9) := by decide

/-- M3. -/
theorem test_addI_wraps : (after ((withI 0xFFFF).setV 0 1) 0xF01E).map (fun t => t.i) =
    some 0x0000 := by decide

/-- M4, E9: the glyph of A. -/
theorem test_ldF : (after (State.reset.setV 0 0xA) 0xF029).map (fun t => (t.i, t.peekBytes 0x32 5)) =
    some (0x0032, [0xF0, 0x90, 0xF0, 0x90, 0x90]) := by decide

/-- M7. -/
theorem test_ldF_no_mask : (after (State.reset.setV 0 0xFF) 0xF029).map (fun t => t.i) =
    some 0x04FB := by decide

/-- M8. -/
theorem test_ldF_moved_font : (after { State.reset.setV 0 0xA with cfg := movedFont } 0xF029).map (fun t => (t.i, t.peekBytes 0x32 5, t.peek 0x50)) =
    some (0x0032, [0, 0, 0, 0, 0], 0xF0) := by decide

/-- M9. -/
theorem test_ldB : (after ((withI 0x300).setV 5 254) 0xF533).map (fun t => (t.peekBytes 0x2FF 5, t.i)) =
    some ([0, 2, 5, 4, 0], 0x300) := by decide

/-- M14. -/
theorem test_ldB_fault : (after ((withI 0xFFE).setV 5 0xFF) 0xF533).map (fun t => (t.status, t.peekBytes 0xFFE 2)) =
    some (.faulted { kind := .outOfBounds, pc := 0x200, word := some 0xF533, info := some 0x1000 }, [0, 0]) := by decide

/-- M15. -/
theorem test_ldIReg : (after ((((withI 0x300).setV 0 1).setV 1 2).setV 3 4) 0xF355).map (fun t => (t.peekBytes 0x300 5, t.i)) =
    some ([1, 2, 0, 4, 0], 0x300) := by decide

/-- M18. -/
theorem test_ldIReg_fault : (after (withI 0x2000) 0xF055).map (fun t => t.status) =
    some (.faulted { kind := .outOfBounds, pc := 0x200, word := some 0xF055, info := some 0x2000 }) := by decide

/-- M19. -/
theorem test_ldRegI : (after ((put (withI 0x300) 0x300 [9, 8, 7, 6, 5]).setV 4 0x44) 0xF365).map (fun t => (t.regBytes 5, t.i)) =
    some ([9, 8, 7, 6, 0x44], 0x300) := by decide

/-- M21. -/
theorem test_ldRegI_fault : (after ((withI 0xFF8).setV 0 0x11) 0xFF65).map (fun t => (t.status, t.getV 0)) =
    some (.faulted { kind := .outOfBounds, pc := 0x200, word := some 0xFF65, info := some 0x1000 }, 0x11) := by decide

/-- Storing the byte an address holds after reset unlists it: the form is canonical. -/
theorem test_memory_unlists : ((put State.reset 0x300 [7]).poke 0x300 0).mem = [] ∧ (State.reset.poke 0x32 0xF0).mem = [] := by decide

/-- R42, R43: the checked accesses at the edge. -/
theorem test_memory_edge : State.reset.memRead 0xFFF = .ok 0 ∧ State.reset.memRead 0x1000 = .error 0x1000 := ⟨rfl, rfl⟩

/-! ### Timers and keys (§2.7) -/

/-- T1. -/
theorem test_ldDt : (after (State.reset.setDt 3) 0xF307).map (fun t => (t.getV 3, t.dt)) =
    some (3, 2) := by decide

/-- T3. -/
theorem test_ldDtSet : (after (State.reset.setV 0 7) 0xF015).map (fun t => t.dt) =
    some 6 := by decide

/-- T4. -/
theorem test_ldDtSet_one : (after (State.reset.setV 0 1) 0xF015).map (fun t => t.dt) =
    some 0 := by decide

/-- T5. -/
theorem test_ldStSet : (after (State.reset.setV 0 0x10) 0xF018).map (fun t => t.st) =
    some 0x0F := by decide

/-- T11. -/
theorem test_skp_fault : (after (State.reset.setV 1 0x10) 0xE19E).map (fun t => (t.status, t.draws)) =
    some (.faulted { kind := .outOfBounds, pc := 0x200, word := some 0xE19E, info := some 0x10 }, 0) := by decide

/-- T12. -/
theorem test_sknp_fault : (after (State.reset.setV 1 0xFF) 0xE1A1).map (fun t => (t.status, t.draws)) =
    some (.faulted { kind := .outOfBounds, pc := 0x200, word := some 0xE1A1, info := some 0xFF }, 0) := by decide

/-- T7, T8: whichever the sample. -/
theorem test_skp : ∃ t, exec (.skp 1) (State.reset.setV 1 0xB) = .next t ∧
    t.pc = if Config.keyDown 0 0xB then 0x202 else 0x200 :=
  ⟨_, rfl, by rw [skipIf_eq]; rfl⟩

/-- T9, T10: whichever the sample. -/
theorem test_sknp : ∃ t, exec (.sknp 1) (State.reset.setV 1 0xB) = .next t ∧
    t.pc = if Config.keyDown 0 0xB then 0x200 else 0x202 := by
  refine ⟨_, rfl, ?_⟩
  rw [skipIf_eq]
  show (if (!Config.keyDown 0 0xB) = true then (0x202 : Word) else 0x200) = _
  cases Config.keyDown 0 0xB <;> rfl

/-- T13, T14: whichever the sample. -/
theorem test_ldK : ∃ t, exec (.ldK 5) (atPc 0x202) = .next t ∧
    (t.pc, t.getV 5) = match Config.nextKey 0 with | none => (0x200, 0) | some k => (0x202, k.setWidth 8) := by
  refine ⟨match Config.nextKey 0 with
    | none => (atPc 0x202).drawn.rewindPc
    | some k => (atPc 0x202).drawn.setV 5 (byteOfKey k), rfl, ?_⟩
  cases Config.nextKey 0 with
  | none => rfl
  | some k => rfl

/-! ### Display (§2.8) -/

/-- D1. -/
theorem test_cls : (after { State.reset with fb := (fbClear.set 0 0xFF).set 255 0x01 } 0x00E0).map
    (fun t => (t.fb[0], t.fb[255], t.getV vf)) = some (0, 0, 0) := by decide

/-- D2, E6. -/
theorem test_drw_across_bytes : (after (sprite 5 0 0xFF) 0xD011).map (fun t => (t.fb[0], t.fb[1], t.fb[2], t.getV vf)) =
    some (0x07, 0xF8, 0, 0) := by decide

/-- D4, E7. -/
theorem test_drw_wraps_columns : (after (sprite 60 0 0xFF) 0xD011).map (fun t => (t.fb[7], t.fb[0], t.fb[8], t.getV vf)) =
    some (0x0F, 0xF0, 0, 0) := by decide

/-- D5. -/
theorem test_drw_wraps_rows : (after (put (sprite 0 31 0x80) 0x301 [0x80]) 0xD012).map (fun t => (t.fb[248], t.fb[0], t.getV vf)) =
    some (0x80, 0x80, 0) := by decide

/-- D8. -/
theorem test_drw_collides : (after { sprite 0 0 0x01 with fb := fbClear.set 0 0x01 } 0xD011).map (fun t => (t.fb[0], t.getV vf)) =
    some (0, 1) := by decide

/-- D11: the coordinate is VF's old value. -/
theorem test_drw_vf_coordinate : (after ((sprite 0 0 0x80).setVf 3) 0xDF11).map (fun t => (t.fb[0], t.getV vf)) =
    some (0x10, 0) := by decide

/-- D12. -/
theorem test_drw_zero_rows : (after ((withI 0xFFFF).setVf 1) 0xD010).map (fun t => (t.getV vf, t.status)) =
    some (0, .running) := by decide

/-- D13. -/
theorem test_drw_fault : (after ((withI 0xFFF).setVf 7) 0xD012).map (fun t => (t.status, t.getV vf)) =
    some (.faulted { kind := .outOfBounds, pc := 0x200, word := some 0xD012, info := some 0x1000 }, 7) := by decide

/-- D16: entries 5 to 12 of row 0 in the readout after D2. -/
theorem test_readout : (after (sprite 5 0 0xFF) 0xD011).map (fun t => (t.readout[4], t.readout[5], t.readout[12], t.readout[13])) =
    some (0, 255, 255, 0) := by
  simp only [State.readout, fbReadout, Vector.getElem_ofFn]
  decide

/-- D7, byte-level (R158). -/
theorem test_byte_level : (rowDrawBytes fbClear 63 0 0xC0).1[7] = 0x01 ∧ (rowDrawBytes fbClear 63 0 0xC0).1[0] = 0x80 := by decide

/-! ### Witnesses: for each obligation with hypotheses, states and operands that meet all of them, clause by clause, at the ends
of the clause's range -/

theorem witness_StepRunsTheDecodedInstruction :
    let s := put (atPc 0xFFE) 0xFFE [0x61, 0x23]
    s.status = .running ∧ s.pc.toNat ≤ 0xFFE ∧
      decodeBytes [s.peek s.pc.toNat, s.peek (s.pc.toNat + 1)] = .ok (.ld 1 0x23, []) := ⟨rfl, by decide, rfl⟩

theorem witness_RunningStepAlwaysAnswers : State.reset.status = .running ∧ (atPc 0x1000).status = .running := ⟨rfl, rfl⟩

theorem witness_StatusIsCheckedFirst : (State.new defaultConfig).status = .unloaded ∧
    ∃ rec, (State.reset.takeFault .stackUnderflow (some 0x00EE) none).status = .faulted rec := ⟨rfl, _, rfl⟩

theorem witness_FetchIsBigEndian : (atPc 0xFFE).pc.toNat ≤ 0xFFE ∧ (atPc 0).pc.toNat ≤ 0xFFE := by decide

theorem witness_FetchFaultsOutOfRange :
    (atPc 0xFFE).pc.toNat ≤ 0xFFE ∧ (0xFFF ≤ (atPc 0xFFF).pc.toNat ∧ (atPc 0xFFF).status = .running) ∧
    (0xFFF ≤ (atPc 0xFFFF).pc.toNat ∧ (atPc 0xFFFF).status = .running) := by decide

theorem witness_TimersAgeOncePerCleanStep_clean :
    let s := placeWord ((State.reset.setV 0 7).setSt 1) 0xF015
    s.status = .running ∧ s.fetch s.pc.toNat = .ok 0xF015 ∧ ∃ t, step s = .next t ∧ t.status = .running :=
  ⟨rfl, rfl, _, rfl, rfl⟩

theorem witness_TimersAgeOncePerCleanStep_fault :
    let s := placeWord (State.reset.setDt 5) 0x00EE
    s.status = .running ∧ s.fetch s.pc.toNat = .ok 0x00EE ∧ ∃ t, step s = .next t ∧ t.status ≠ .running :=
  ⟨rfl, rfl, _, rfl, by decide⟩

theorem witness_DecodeOfEncode : Instr.wf (.drw 0xF 0 0xF) = true ∧ Instr.wf (.sys 0xF 0xFFF) = true ∧
    Instr.wf (.sys 0 0) = true := by decide

theorem witness_OpcodeMapIsDecoded_and_DisassemblyNamesTheRow_row : (⟨"CLS", 0x00E0, 0xFFFF, fun _ => .cls⟩ : OpcodeRow) ∈ opcodeRows ∧
    0x00E0#16 &&& 0xFFFF = 0x00E0 := ⟨List.mem_cons_self, by decide⟩

theorem witness_OpcodeMapIsDecoded_and_DisassemblyNamesTheRow_none : ∀ row ∈ opcodeRows, 0x5121#16 &&& row.mask ≠ row.val := by decide

theorem witness_MemoryReadsWhatWasWritten : 0xFFF ≤ 0xFFF ∧ 0 ≠ 0xFFF ∧ 0x1000 > 0xFFF := by decide

theorem witness_MemoryFormIsCanonical_store : Memory.wf defaultConfig [(0x32, 0), (0xFFF, 7)] ∧ 0xFFF ≤ 0xFFF := by decide

theorem witness_MemoryFormIsCanonical_same :
    Memory.wf defaultConfig ((put State.reset 0x300 [1, 2]).poke 0x301 0).mem ∧ Memory.wf defaultConfig [(0x300, 1)] ∧
    ∀ a, Memory.read defaultConfig ((put State.reset 0x300 [1, 2]).poke 0x301 0).mem a = Memory.read defaultConfig [(0x300, 1)] a := by
  refine ⟨by decide, by decide, fun a => ?_⟩
  have h : ((put State.reset 0x300 [1, 2]).poke 0x301 0).mem = [(0x300, 1)] := by decide
  rw [h]

theorem witness_RangeCheckNamesLowestAddress : (∀ k < 3, 0xFFD + k ≤ 0xFFF) ∧
    (0xFFE ≤ 0x1000 ∧ 0x1000 < 0xFFE + 3 ∧ 0x1000 > 0xFFF ∧ ∀ b, 0xFFE ≤ b → b < 0x1000 → b ≤ 0xFFF) :=
  ⟨by decide, by decide, by decide, by decide, fun _ _ _ => by omega⟩

theorem witness_StoresAreSeenByTheNextFetch_registers :
    let s := placeWord (((withI 0x202).setV 0 0x61).setV 1 0x23) 0xF155
    s.status = .running ∧ s.fetch s.pc.toNat = .ok (packXKK 0xF 1 0x55) ∧
      ∃ t, step s = .next t ∧ t.status = .running ∧ t.fetch (s.i.toNat + 0) = .ok 0x6123 ∧
        0x202 + 1 = s.i.toNat + (1 : RegIdx).toNat ∧ t.fetch 0x202 = .ok 0x6123 :=
  ⟨rfl, rfl, _, rfl, rfl, rfl, by decide, rfl⟩

theorem witness_StoresAreSeenByTheNextFetch_digits :
    let s := placeWord ((withI 0x202).setV 5 254) 0xF533
    s.status = .running ∧ s.fetch s.pc.toNat = .ok (packXKK 0xF 5 0x33) ∧
      ∃ t, step s = .next t ∧ t.status = .running ∧ 0x201 + 1 = s.i.toNat ∧ t.fetch 0x201 = .ok 0x3302 ∧
        t.fetch s.i.toNat = .ok 0x0205 ∧ t.fetch (s.i.toNat + 1) = .ok 0x0504 ∧ t.fetch (s.i.toNat + 2) = .ok 0x0400 :=
  ⟨rfl, rfl, _, rfl, rfl, rfl, rfl, rfl, rfl, rfl⟩

/-- A state with the invariant whose memory, return stack and `pc` are not those of reset: after a CALL from 0xFFE. -/
theorem witness_StepKeepsInvariant :
    let s := put { withSp 2 with pc := 0xFFE } 0xFFE [0x23, 0x00]
    Inv s ∧ ∃ t, step s = .next t ∧ t.stack[2] = 0x1000 :=
  ⟨⟨by decide, by decide, by decide⟩, _, rfl, rfl⟩

theorem witness_FaultTableIsComplete :
    (withI 0xFFE).status = .running ∧ faultOf (.ldB 0) (withI 0xFFE) = some (.outOfBounds, some 0x1000) ∧
    faultOf (.ldB 0) (withI 0xFFD) = none := ⟨rfl, rfl, rfl⟩

theorem witness_FaultsArePreciseAndSticky_execute :
    let s := placeWord State.reset 0x00EE
    s.status = .running ∧ s.fetch s.pc.toNat = .ok 0x00EE ∧ ∃ t rec, step s = .next t ∧ t.status = .faulted rec :=
  ⟨rfl, rfl, _, _, rfl, rfl⟩

theorem witness_FaultsArePreciseAndSticky_fetch :
    (atPc 0x1000).status = .running ∧ (atPc 0x1000).fetch (atPc 0x1000).pc.toNat = .error 0x1000 ∧
      ∃ t rec, step (atPc 0x1000) = .next t ∧ t.status = .faulted rec := ⟨rfl, rfl, _, _, rfl, rfl⟩

theorem witness_OnlyFlagWritersChangeVf :
    ∃ t, exec (.addReg 1 2) (with12 0x80 0x80) = .next t ∧ t.getV vf ≠ (with12 0x80 0x80).getV vf := ⟨_, rfl, by decide⟩

theorem witness_OnlyFlagWritersChangeVf_destination :
    ∃ t, exec (.ldRegI 0xF) (put (withI 0x300) 0x30F [1]) = .next t ∧ t.getV vf ≠ (put (withI 0x300) 0x30F [1]).getV vf :=
  ⟨_, rfl, by decide⟩

theorem witness_FrameOfEveryInstruction :
    (withI 0xFF0).status = .running ∧ ∃ t, exec (.ldIReg 0xF) (withI 0xFF0) = .next t ∧ t.status = .running :=
  ⟨rfl, _, rfl, by decide⟩

theorem witness_UntouchedStateIsIrrelevant :
    ((∀ x y n, Instr.subn 1 2 ≠ .drw x y n) ∧ (∀ x, Instr.subn 1 2 ≠ .ldB x) ∧ (∀ x, Instr.subn 1 2 ≠ .ldIReg x) ∧
      (∀ x, Instr.subn 1 2 ≠ .ldRegI x) ∧ Instr.subn 1 2 ≠ .cls ∧ Instr.subn 1 2 ≠ .ret ∧ (∀ nnn, Instr.subn 1 2 ≠ .call nnn) ∧
      (∀ x, Instr.subn 1 2 ≠ .ldDt x) ∧ (∀ x, Instr.subn 1 2 ≠ .ldDtSet x) ∧
      (∀ x, Instr.subn 1 2 ≠ .ldStSet x) ∧ (∀ nnn, Instr.subn 1 2 ≠ .ldI nnn) ∧ (∀ x, Instr.subn 1 2 ≠ .ldF x) ∧
      (∀ x, Instr.subn 1 2 ≠ .addI x)) ∧ (∃ x, Instr.ldDtSet 3 = .ldDtSet x) ∧ ∃ x, Instr.ldStSet 3 = .ldStSet x := by simp

theorem witness_AtMostOneSample :
    ∃ t, exec (.rnd 0xF 0) State.reset = .next t ∧ t.draws ≠ State.reset.draws := ⟨_, rfl, by decide⟩

theorem witness_SysDoesNothing :
    (0x0E1#12 ≠ 0x0E0 ∧ 0x0E1#12 ≠ 0x0EE) ∧
    (placeWord State.reset 0xFFFF).status = .running ∧
    (placeWord State.reset 0xFFFF).fetch (placeWord State.reset 0xFFFF).pc.toNat = .ok 0xFFFF ∧
    decodeWord 0xFFFF = .sys 0xF 0xFFF := ⟨by decide, rfl, rfl, by decide⟩

theorem witness_JumpSetsPc : (0xFFF : Addr12) = 0xFFF ∧ (0xFFE : Addr12) ≠ 0xFFF := by decide

theorem witness_JumpSetsPc_self : (placeWord State.reset 0x1200).status = .running ∧
    (placeWord State.reset 0x1200).fetch (placeWord State.reset 0x1200).pc.toNat = .ok (packNNN 0x1 0x200) ∧
    (placeWord State.reset 0x1200).pc.toNat = (0x200 : Addr12).toNat := ⟨rfl, rfl, rfl⟩

theorem witness_SkipsCompareImmediate : (atPc 0xFFE).pc = 0xFFE ∧ (atPc 0xFFE).getV 3 = 0 ∧ (atPc 0xFFE).getV 3 ≠ 1 := by decide

theorem witness_DelayTimerIsRead :
    let s := put (placeWord (State.reset.setV 0 7) 0xF015) 0x202 [0xF3, 0x07]
    s.status = .running ∧ s.fetch s.pc.toNat = .ok (packXKK 0xF 0 0x15) ∧
      ∃ u t, step s = .next u ∧ u.status = .running ∧ u.fetch u.pc.toNat = .ok (packXKK 0xF 3 0x07) ∧ step u = .next t ∧
        t.getV 3 = 6 := ⟨rfl, rfl, _, _, rfl, rfl, rfl, rfl, rfl⟩

theorem witness_ClearScreenZeroesEveryPixel : ∀ k : Fin 256, State.reset.fb[k] = 0 := by intro k; simp [State.reset]

theorem witness_JumpAddsV0 : 0xFFF ≤ (0xFFE#12).toNat + ((State.reset.setV 0 1).getV 0).toNat ∧
    ¬ 0xFFF ≤ (0xFFE#12).toNat + (State.reset.getV 0).toNat := by decide

theorem witness_CallPushesAndJumps : (withSp 15).sp.val < 16 ∧ (withSp 16).sp.val = 16 := by decide

theorem witness_ReturnPopsIntoPc : 0 < (withSp 1).sp.val ∧ (withSp 0).sp.val = 0 := by decide

theorem witness_ReturnUndoesCall : (withSp 15).sp.val < 16 ∧
    ∃ t, exec (.call 0x300) (withSp 15) = .next t ∧ ∃ u : State, u.sp = t.sp ∧ u.stack = t.stack ∧ u ≠ t :=
  ⟨by decide, _, rfl, { withSp 16 with stack := (withSp 15).stack.set 15 0x200, i := 7 }, rfl, rfl, fun e => absurd (congrArg State.i e) (by decide)⟩

theorem witness_SkipsCompareRegisters : (1 : Nibble) ≠ 0 ∧ (15 : Nibble) ≠ 0 := by decide

/-- The two sides of the clauses of ADD, ADD_REG, SUB_REG, SHR, SHL and SUBN: the destination is VF or it is not. -/
theorem witness_destination_vf : (0xE : RegIdx) ≠ vf ∧ (0xF : RegIdx) = vf := by decide

theorem witness_FontAddressIsFiveTimes : State.reset.cfg.fontBase = 0 ∧ State.reset.mem = [] ∧
    ((State.reset.setV 0 0xF).getV 0).toNat < 16 := by decide

theorem witness_DecimalDigitsAreStored : (withI 0xFFD).i.toNat + 2 ≤ 0xFFF ∧ (withI 0xFFE).i.toNat + 2 > 0xFFF := by decide

theorem witness_RegistersAreStored_and_Loaded :
    (withI 0xFF0).i.toNat + (0xF : RegIdx).toNat ≤ 0xFFF ∧ (withI 0xFF1).i.toNat + (0xF : RegIdx).toNat > 0xFFF ∧
    (withI 0xFFF).i.toNat + (0 : RegIdx).toNat ≤ 0xFFF ∧ (0x1 : RegIdx).toNat > (0 : RegIdx).toNat := by decide

theorem witness_KeySkipsSampleTheKey : (0xF : Key).toNat = ((State.reset.setV 1 0x0F).getV 1).toNat ∧
    ((State.reset.setV 1 0x10).getV 1).toNat > 15 := by decide

theorem witness_WaitForKeyRewinds : (placeWord State.reset 0xF50A).status = .running ∧
    (placeWord State.reset 0xF50A).fetch (placeWord State.reset 0xF50A).pc.toNat = .ok (packXKK 0xF 5 0x0A) := ⟨rfl, rfl⟩

theorem witness_DrawFlipsCoveredPixels : (0 : Nibble).toNat = 0 ∧ (withI 0xFF1).i.toNat + (15 : Nibble).toNat - 1 ≤ 0xFFF ∧
    0 < (15 : Nibble).toNat ∧ (withI 0xFF2).i.toNat + (15 : Nibble).toNat - 1 > 0xFFF := by decide

/-- A sprite that covers a set pixel, and one that covers none: a row of 0xFF at (60, 31) covers column 3 of row 31, wrapping,
and not column 4. -/
theorem witness_DrawFlipsCoveredPixels_covers :
    SpriteCovers 60 31 ((sprite 60 31 0xFF).peekBytes 0x300 1) (3, 31) ∧
    ¬ SpriteCovers 60 31 ((sprite 60 31 0xFF).peekBytes 0x300 1) (4, 31) ∧
    fbPixel (fbClear.set 248 0x10) (3, 31) = true := by
  refine ⟨spriteCovers_iff.2 (by decide), fun h => absurd (spriteCovers_iff.1 h) (by decide), by decide⟩

/-- Fifteen rows, a covered pixel, an uncovered one (16 rows down is row 15 from row 0), and a set pixel that is cleared. -/
theorem witness_DrawIsPixelwiseXor : (List.replicate 15 (0x80 : Byte)).length ≤ 15 ∧
    SpriteCovers 0 31 (List.replicate 15 0x80) (0, 13) ∧ ¬ SpriteCovers 0 31 (List.replicate 15 0x80) (0, 14) := by
  refine ⟨by decide, spriteCovers_iff.2 (by decide), fun h => absurd (spriteCovers_iff.1 h) (by decide)⟩

theorem witness_ByteLevelBlitterAgrees : ([] : List Byte).length ≤ 15 ∧ (List.replicate 15 (0xFF : Byte)).length ≤ 15 := by decide

theorem witness_DrawingTwiceRestores : [(0xFF : Byte)].length ≤ 15 ∧ (fbDraw fbClear 60 31 [0xFF]).2 = false := by decide

theorem witness_NewSeedsTheFont : 0x50 + 79 < movedFont.fontBase.val + 80 ∧ 0x4F < movedFont.fontBase.val ∧
    movedFont.fontBase.val + 80 ≤ 0xA0 := by decide

theorem witness_LoadCopiesTheRom : (State.new defaultConfig).status = .unloaded ∧ (List.replicate 3584 (1 : Byte)).length ≤ 3584 ∧
    (List.replicate 3585 (1 : Byte)).length > 3584 ∧ State.reset.status ≠ .unloaded :=
  ⟨rfl, Nat.le_of_eq List.length_replicate, Nat.lt_of_lt_of_eq (by decide) List.length_replicate.symm, by decide⟩

end Sys2Proof.Tests
end

section
/-! The invariant (10_state.md R19, R22): one rule per state operation, then the execute phase, then the step. -/

namespace Sys2Proof.Machine

/-! ### What each state operation does to the invariant -/

theorem Inv.setV {s : State} (h : Inv s) (x : RegIdx) (b : Byte) : Inv (s.setV x b) := ⟨h.mem, h.pc, h.entries⟩

theorem Inv.setVf {s : State} (h : Inv s) (b : Byte) : Inv (s.setVf b) := h.setV vf b

theorem Inv.setI {s : State} (h : Inv s) (w : Word) : Inv (s.setI w) := ⟨h.mem, h.pc, h.entries⟩

theorem Inv.setDt {s : State} (h : Inv s) (b : Byte) : Inv (s.setDt b) := ⟨h.mem, h.pc, h.entries⟩

theorem Inv.setSt {s : State} (h : Inv s) (b : Byte) : Inv (s.setSt b) := ⟨h.mem, h.pc, h.entries⟩

theorem Inv.setFb {s : State} (h : Inv s) (f : Framebuffer) : Inv (s.setFb f) := ⟨h.mem, h.pc, h.entries⟩

theorem Inv.drawn {s : State} (h : Inv s) : Inv s.drawn := ⟨h.mem, h.pc, h.entries⟩

theorem Inv.ageTimers {s : State} (h : Inv s) : Inv s.ageTimers := ⟨h.mem, h.pc, h.entries⟩

theorem Inv.finish {s : State} (h : Inv s) : Inv s.finish := by
  unfold State.finish
  split
  · exact h
  · exact h.ageTimers

theorem Inv.setSubnFlag {s : State} (h : Inv s) (vx vy : Byte) : Inv (s.setSubnFlag vx vy) := by
  obtain ⟨v, hv⟩ := setSubnFlag_only s vx vy
  rw [hv]
  exact ⟨h.mem, h.pc, h.entries⟩

theorem Inv.setRegs {s : State} (h : Inv s) (k : Nat) (bs : List Byte) : Inv (s.setRegs k bs) := by
  obtain ⟨v, hv⟩ := setRegs_only bs s k
  rw [hv]
  exact ⟨h.mem, h.pc, h.entries⟩

theorem Inv.pokeBytes {s : State} (h : Inv s) {base : Nat} {bs : List Byte} (hb : base + bs.length ≤ memSize) :
    Inv (s.pokeBytes base bs) :=
  ⟨pokeBytes_wf bs h.mem hb, by simpa using h.pc, by simpa using h.entries⟩

theorem Inv.setPc {s : State} (h : Inv s) {w : Word} (hw : w.toNat ≤ 0x10FE) : Inv (s.setPc w) :=
  ⟨h.mem, fun _ => hw, h.entries⟩

theorem Inv.takeFault {s : State} (h : Inv s) (hpc : s.pc.toNat ≤ 0x10FE) (kind : FaultKind) (word : Option Word)
    (info : Option Nat) : Inv (s.takeFault kind word info) :=
  ⟨h.mem, fun _ => hpc, h.entries⟩

theorem Inv.pop {s t : State} {w : Word} (h : Inv s) (hp : s.pop = some (w, t)) : Inv t ∧ w.toNat ≤ 0x1000 := by
  obtain ⟨h0, rfl, rfl⟩ := pop_eq_some hp
  have hsp := s.sp.isLt
  have below : ∀ k : Fin 16, k.val < s.sp.val - 1 → s.stack[k].toNat ≤ 0x1000 :=
    fun k hk => h.entries k (by omega)
  exact ⟨⟨h.mem, h.pc, below⟩, h.entries ⟨s.sp.val - 1, by omega⟩ (by simp; omega)⟩

theorem Inv.push {s t : State} {w : Word} (h : Inv s) (hw : w.toNat ≤ 0x1000) (hp : s.push w = some t) : Inv t := by
  obtain ⟨h16, rfl⟩ := push_eq_some hp
  refine ⟨h.mem, h.pc, fun k hk => ?_⟩
  by_cases hks : s.sp.val = k.val
  · simpa [hks] using hw
  · have old : s.stack[k].toNat ≤ 0x1000 := h.entries k (by simp at hk; omega)
    simpa [Vector.getElem_set_ne, hks] using old

/-! ### Bounds on the words that reach `pc` -/

theorem zext16_toNat (nnn : Addr12) : (zext16 nnn).toNat = nnn.toNat := by
  have := nnn.isLt
  simp only [zext16, BitVec.toNat_setWidth]
  omega

theorem zextByte_toNat (b : Byte) : (zextByte b).toNat = b.toNat := by
  have := b.isLt
  simp only [zextByte, BitVec.toNat_setWidth]
  omega

/-- The exact sum of JP_REG (R94): 12-bit address plus byte does not wrap. -/
theorem zext16_add_zextByte_toNat (nnn : Addr12) (b : Byte) : (zext16 nnn + zextByte b).toNat = nnn.toNat + b.toNat := by
  have := nnn.isLt
  have := b.isLt
  rw [BitVec.toNat_add, zext16_toNat, zextByte_toNat]
  omega

/-- A range that passes the check of R44 and is not empty lies inside memory. -/
theorem range_le_memSize {base n : Nat} (h : rangeFault base n = none) (hn : 0 < n) : base + n ≤ memSize := by
  have last := (rangeFault_eq_none base n).1 h (n - 1) (by omega)
  unfold memSize
  omega

/-! ### The execute phase and the step -/

section
variable {s : State} (h : Inv s) (hlo : 2 ≤ s.pc.toNat) (hhi : s.pc.toNat ≤ 0x1000)
include h hlo hhi

theorem Inv.rewindPc : Inv s.rewindPc := h.setPc (by rw [BitVec.toNat_sub]; simp; omega)

theorem Inv.raise (i : Instr) (kind : FaultKind) (info : Option Nat) : Inv (s.raise i kind info) :=
  (h.rewindPc hlo hhi).takeFault (by simp only [State.rewindPc_pc, BitVec.toNat_sub]; simp; omega) _ _ _

omit hlo in
theorem Inv.skipIf (c : Bool) : Inv (s.skipIf c) := by
  cases c
  · exact h
  · exact h.setPc (by rw [BitVec.toNat_add]; simp; omega)

/-- The execute phase keeps the invariant from a state whose `pc` is that of a fetched instruction plus 2 (R74). -/
theorem exec_keeps_inv (i : Instr) : ∃ t, exec i s = .next t ∧ Inv t := by
  have raised := h.raise hlo hhi i
  have jump (nnn : Addr12) : (zext16 nnn).toNat ≤ 0x10FE := by have := nnn.isLt; rw [zext16_toNat]; omega
  cases i with
  | sys op nnn => exact ⟨_, rfl, h⟩
  | cls => exact ⟨_, rfl, h.setFb _⟩
  | ret =>
    simp only [exec, execRet]
    split
    next => exact ⟨_, rfl, raised _ _⟩
    next target s1 hp =>
      obtain ⟨hi, hw⟩ := h.pop hp
      exact ⟨_, rfl, hi.setPc (by omega)⟩
  | jp nnn => exact ⟨_, rfl, h.setPc (jump nnn)⟩
  | call nnn =>
    simp only [exec, execCall]
    split
    next => exact ⟨_, rfl, raised _ _⟩
    next s1 hp => exact ⟨_, rfl, (h.push hhi hp).setPc (jump nnn)⟩
  | se x kk => exact ⟨_, rfl, h.skipIf hhi _⟩
  | sne x kk => exact ⟨_, rfl, h.skipIf hhi _⟩
  | seReg x y => exact ⟨_, rfl, h.skipIf hhi _⟩
  | ld x kk => exact ⟨_, rfl, h.setV _ _⟩
  | add x kk => exact ⟨_, rfl, h.setV _ _⟩
  | ldReg x y => exact ⟨_, rfl, h.setV _ _⟩
  | or x y => exact ⟨_, rfl, h.setV _ _⟩
  | and x y => exact ⟨_, rfl, h.setV _ _⟩
  | xor x y => exact ⟨_, rfl, h.setV _ _⟩
  | addReg x y => exact ⟨_, rfl, (h.setV _ _).setVf _⟩
  | subReg x y => exact ⟨_, rfl, (h.setV _ _).setVf _⟩
  | shr x y => exact ⟨_, rfl, (h.setVf _).setV _ _⟩
  | subn x y => exact ⟨_, rfl, (h.setV _ _).setSubnFlag _ _⟩
  | shl x y => exact ⟨_, rfl, (h.setVf _).setV _ _⟩
  | sneReg x y => exact ⟨_, rfl, h.skipIf hhi _⟩
  | ldI nnn => exact ⟨_, rfl, h.setI _⟩
  | jpReg nnn =>
    have target : (zext16 nnn + zextByte (s.getV 0)).toNat ≤ 0x10FE := by
      have := nnn.isLt
      have := (s.getV 0).isLt
      rw [zext16_add_zextByte_toNat]
      omega
    exact ⟨_, rfl, h.setPc target⟩
  | rnd x kk => exact ⟨_, rfl, h.drawn.setV _ _⟩
  | drw x y n =>
    simp only [exec, execDrw]
    split
    next => exact ⟨_, rfl, raised _ _⟩
    next => exact ⟨_, rfl, (h.setFb _).setVf _⟩
  | skp x =>
    simp only [exec, execSkp]
    split
    next => exact ⟨_, rfl, raised _ _⟩
    next => exact ⟨_, rfl, h.drawn.skipIf hhi _⟩
  | sknp x =>
    simp only [exec, execSknp]
    split
    next => exact ⟨_, rfl, raised _ _⟩
    next => exact ⟨_, rfl, h.drawn.skipIf hhi _⟩
  | ldDt x => exact ⟨_, rfl, h.setV _ _⟩
  | ldK x =>
    refine ⟨_, rfl, ?_⟩
    split
    next => exact h.drawn.rewindPc hlo hhi
    next => exact h.drawn.setV _ _
  | ldDtSet x => exact ⟨_, rfl, h.setDt _⟩
  | ldStSet x => exact ⟨_, rfl, h.setSt _⟩
  | addI x => exact ⟨_, rfl, h.setI _⟩
  | ldF x => exact ⟨_, rfl, h.setI _⟩
  | ldB x =>
    simp only [exec, execLdB]
    split
    next => exact ⟨_, rfl, raised _ _⟩
    next hr => exact ⟨_, rfl, h.pokeBytes (range_le_memSize (n := 3) hr (by decide))⟩
  | ldIReg x =>
    simp only [exec, execLdIReg]
    split
    next => exact ⟨_, rfl, raised _ _⟩
    next hr => exact ⟨_, rfl, h.pokeBytes (by simpa using range_le_memSize hr (Nat.succ_pos _))⟩
  | ldRegI x =>
    simp only [exec, execLdRegI]
    split
    next => exact ⟨_, rfl, raised _ _⟩
    next => exact ⟨_, rfl, h.setRegs _ _⟩

end

/-- Settles O16: a step either takes a fetch fault or executes a word fetched from an address up to 0xFFE, and the execute phase
keeps the invariant. -/
theorem stepKeepsInvariant : Obligations.StepKeepsInvariant := by
  intro s t h hstep
  obtain ⟨hrun, ⟨a, -, rfl⟩ | ⟨w, u, hf, hu, rfl⟩⟩ := step_cases hstep
  · exact h.takeFault (h.pc (by simp [hrun])) _ _ _
  · obtain ⟨hpc, -⟩ := fetch_eq_ok.1 hf
    have adv : s.advancePc.pc.toNat = s.pc.toNat + 2 := by
      rw [State.advancePc_pc, BitVec.toNat_add]; simp; omega
    have ready : Inv s.advancePc := h.setPc (by rw [State.advancePc_pc] at adv; omega)
    obtain ⟨u', hu', hi⟩ := exec_keeps_inv ready (by omega) (by omega) (decodeWord w)
    rw [hu] at hu'
    cases hu'
    exact hi.finish

/-- Settles O17: at reset and after New nothing is stored and the return stack is empty; after New no ROM is loaded, so that
`pc` has no bound to meet. -/
theorem resetMeetsInvariant : Obligations.ResetMeetsInvariant := by
  refine ⟨⟨reset_mem_wf, by decide, fun k hk => absurd hk (Nat.not_lt_zero _)⟩, fun cfg => ⟨?_, ?_, ?_⟩⟩
  · simp [State.new, Memory.wf]
  · exact fun hs => absurd rfl hs
  · exact fun k hk => absurd hk (Nat.not_lt_zero _)

end Sys2Proof.Machine
end

section
/-! The frame of every instruction (10_state.md R16 to R28, 20_memory.md R40): one rule per state operation, then the execute
phase, which either raises a fault or stays within the footprint. -/

namespace Sys2Proof.Machine

/-! ### One more write inside the parts named -/

namespace Frame

variable {p : Parts} {s t : State}

theorem refl : Frame p s s where
  regs _ _ := rfl
  index _ := rfl
  pc _ := rfl
  entries _ _ := rfl
  sp _ := rfl
  dt _ := rfl
  st _ := rfl
  stored _ _ := rfl
  fb _ := rfl
  status _ := rfl
  draws _ := rfl
  cfg := rfl

theorem setV (h : Frame p s t) {x : RegIdx} (hx : x ∈ p.regs) (b : Byte) : Frame p s (t.setV x b) :=
  { h with regs := fun r hr => (getV_setV_ne t b (ne_of_mem_of_not_mem hx hr).symm).trans (h.regs r hr) }

theorem setVf (h : Frame p s t) (hx : vf ∈ p.regs) (b : Byte) : Frame p s (t.setVf b) := h.setV hx b

theorem setSubnFlag (h : Frame p s t) (hx : vf ∈ p.regs) (vx vy : Byte) : Frame p s (t.setSubnFlag vx vy) := by
  rw [setSubnFlag_eq]
  split
  · exact h.setVf hx 1
  · split
    · exact h.setVf hx 0
    · exact h

theorem setRegs (h : Frame p s t) {k : Nat} {bs : List Byte} (hk : k + bs.length ≤ 16)
    (hr : ∀ r : RegIdx, k ≤ r.toNat → r.toNat < k + bs.length → r ∈ p.regs) : Frame p s (t.setRegs k bs) := by
  have regs : ∀ r, r ∉ p.regs → (t.setRegs k bs).getV r = s.getV r := fun r hn => by
    rw [getV_setRegs bs t k hk r, dif_neg (fun hc => hn (hr r hc.1 hc.2)), h.regs r hn]
  obtain ⟨v, hv⟩ := setRegs_only bs t k
  rw [hv] at regs ⊢
  exact { h with regs := regs }

theorem pokeBytes (h : Frame p s t) {base : Nat} {bs : List Byte}
    (hb : ∀ a, base ≤ a → a < base + bs.length → a ∈ p.stored) : Frame p s (t.pokeBytes base bs) := by
  have stored : ∀ a, a ∉ p.stored → (t.pokeBytes base bs).peek a = s.peek a := fun a hn => by
    rw [peek_pokeBytes, dif_neg (fun hc => hn (hb a hc.1 hc.2)), h.stored a hn]
  obtain ⟨m, hm⟩ := pokeBytes_only bs t base
  rw [hm] at stored ⊢
  exact { h with stored := stored }

theorem setI (h : Frame p s t) (hp : p.index = true) (w : Word) : Frame p s (t.setI w) :=
  { h with index := by simp [hp] }

theorem setPc (h : Frame p s t) (hp : p.pc = true) (w : Word) : Frame p s (t.setPc w) :=
  { h with pc := by simp [hp] }

theorem rewindPc (h : Frame p s t) (hp : p.pc = true) : Frame p s t.rewindPc := h.setPc hp _

theorem skipIf (h : Frame p s t) (hp : p.pc = true) (c : Bool) : Frame p s (t.skipIf c) := by
  cases c
  · exact h
  · exact h.setPc hp _

theorem setDt (h : Frame p s t) (hp : p.dt = true) (b : Byte) : Frame p s (t.setDt b) :=
  { h with dt := by simp [hp] }

theorem setSt (h : Frame p s t) (hp : p.st = true) (b : Byte) : Frame p s (t.setSt b) :=
  { h with st := by simp [hp] }

theorem setFb (h : Frame p s t) (hp : p.fb = true) (f : Framebuffer) : Frame p s (t.setFb f) :=
  { h with fb := by simp [hp] }

theorem drawn (h : Frame p s t) (hp : p.draws = true) : Frame p s t.drawn :=
  { h with draws := by simp [hp] }

theorem pop (h : Frame p s t) (hp : p.sp = true) {u : State} {w : Word} (ht : t.pop = some (w, u)) : Frame p s u := by
  obtain ⟨-, -, rfl⟩ := pop_eq_some ht
  exact { h with sp := by simp [hp] }

theorem push (h : Frame p s t) (hp : p.sp = true) (he : t.sp.val ∈ p.entries) {u : State} {w : Word}
    (ht : t.push w = some u) : Frame p s u := by
  obtain ⟨h16, rfl⟩ := push_eq_some ht
  have entries : ∀ k : Fin 16, k.val ∉ p.entries → (t.stack.set t.sp.val w)[k] = s.stack[k] := fun k hk => by
    have other : t.sp.val ≠ k.val := fun e => hk (e ▸ he)
    simpa [Vector.getElem_set_ne, other] using h.entries k hk
  exact { h with sp := by simp [hp], entries := entries }

end Frame

/-! ### The execute phase -/

/-- What the execute phase of `i`, run in `s`, leaves: the fault it raises, or a state that differs from `s` within the footprint
of `i` only. -/
def RaisesOrFrames (i : Instr) (s t : State) : Prop :=
  (∃ kind info, t = s.raise i kind info) ∨ Frame (footprint i s) s t

theorem vf_mem_pair (x : RegIdx) : vf ∈ [x, vf] := List.mem_cons_of_mem x List.mem_cons_self

theorem exec_next_raisesOrFrames (i : Instr) (s : State) : ∃ t, exec i s = .next t ∧ RaisesOrFrames i s t := by
  have raised (kind : FaultKind) (info : Option Nat) : RaisesOrFrames i s (s.raise i kind info) := .inl ⟨kind, info, rfl⟩
  cases i with
  | sys op nnn => exact ⟨_, rfl, .inr .refl⟩
  | cls => exact ⟨_, rfl, .inr (Frame.refl.setFb rfl _)⟩
  | ret =>
    simp only [exec, execRet]
    split
    next => exact ⟨_, rfl, raised _ _⟩
    next hp => exact ⟨_, rfl, .inr ((Frame.refl.pop rfl hp).setPc rfl _)⟩
  | jp nnn => exact ⟨_, rfl, .inr (Frame.refl.setPc rfl _)⟩
  | call nnn =>
    simp only [exec, execCall]
    split
    next => exact ⟨_, rfl, raised _ _⟩
    next hp => exact ⟨_, rfl, .inr ((Frame.refl.push rfl List.mem_cons_self hp).setPc rfl _)⟩
  | se x kk => exact ⟨_, rfl, .inr (Frame.refl.skipIf rfl _)⟩
  | sne x kk => exact ⟨_, rfl, .inr (Frame.refl.skipIf rfl _)⟩
  | seReg x y => exact ⟨_, rfl, .inr (Frame.refl.skipIf rfl _)⟩
  | ld x kk => exact ⟨_, rfl, .inr (Frame.refl.setV List.mem_cons_self _)⟩
  | add x kk => exact ⟨_, rfl, .inr (Frame.refl.setV List.mem_cons_self _)⟩
  | ldReg x y => exact ⟨_, rfl, .inr (Frame.refl.setV List.mem_cons_self _)⟩
  | or x y => exact ⟨_, rfl, .inr (Frame.refl.setV List.mem_cons_self _)⟩
  | and x y => exact ⟨_, rfl, .inr (Frame.refl.setV List.mem_cons_self _)⟩
  | xor x y => exact ⟨_, rfl, .inr (Frame.refl.setV List.mem_cons_self _)⟩
  | addReg x y => exact ⟨_, rfl, .inr ((Frame.refl.setV List.mem_cons_self _).setVf (vf_mem_pair x) _)⟩
  | subReg x y => exact ⟨_, rfl, .inr ((Frame.refl.setV List.mem_cons_self _).setVf (vf_mem_pair x) _)⟩
  | shr x y => exact ⟨_, rfl, .inr ((Frame.refl.setVf (vf_mem_pair x) _).setV List.mem_cons_self _)⟩
  | subn x y => exact ⟨_, rfl, .inr ((Frame.refl.setV List.mem_cons_self _).setSubnFlag (vf_mem_pair x) _ _)⟩
  | shl x y => exact ⟨_, rfl, .inr ((Frame.refl.setVf (vf_mem_pair x) _).setV List.mem_cons_self _)⟩
  | sneReg x y => exact ⟨_, rfl, .inr (Frame.refl.skipIf rfl _)⟩
  | ldI nnn => exact ⟨_, rfl, .inr (Frame.refl.setI rfl _)⟩
  | jpReg nnn => exact ⟨_, rfl, .inr (Frame.refl.setPc rfl _)⟩
  | rnd x kk => exact ⟨_, rfl, .inr ((Frame.refl.drawn rfl).setV List.mem_cons_self _)⟩
  | drw x y n =>
    simp only [exec, execDrw]
    split
    next => exact ⟨_, rfl, raised _ _⟩
    next => exact ⟨_, rfl, .inr ((Frame.refl.setFb rfl _).setVf List.mem_cons_self _)⟩
  | skp x =>
    simp only [exec, execSkp]
    split
    next => exact ⟨_, rfl, raised _ _⟩
    next => exact ⟨_, rfl, .inr ((Frame.refl.drawn rfl).skipIf rfl _)⟩
  | sknp x =>
    simp only [exec, execSknp]
    split
    next => exact ⟨_, rfl, raised _ _⟩
    next => exact ⟨_, rfl, .inr ((Frame.refl.drawn rfl).skipIf rfl _)⟩
  | ldDt x => exact ⟨_, rfl, .inr (Frame.refl.setV List.mem_cons_self _)⟩
  | ldK x =>
    refine ⟨_, rfl, .inr ?_⟩
    split
    next => exact (Frame.refl.drawn rfl).rewindPc rfl
    next => exact (Frame.refl.drawn rfl).setV List.mem_cons_self _
  | ldDtSet x => exact ⟨_, rfl, .inr (Frame.refl.setDt rfl _)⟩
  | ldStSet x => exact ⟨_, rfl, .inr (Frame.refl.setSt rfl _)⟩
  | addI x => exact ⟨_, rfl, .inr (Frame.refl.setI rfl _)⟩
  | ldF x => exact ⟨_, rfl, .inr (Frame.refl.setI rfl _)⟩
  | ldB x =>
    simp only [exec, execLdB]
    split
    next => exact ⟨_, rfl, raised _ _⟩
    next => exact ⟨_, rfl, .inr (Frame.refl.pokeBytes fun a hlo hhi => List.mem_range'_1.2 ⟨hlo, hhi⟩)⟩
  | ldIReg x =>
    simp only [exec, execLdIReg]
    split
    next => exact ⟨_, rfl, raised _ _⟩
    next => exact ⟨_, rfl, .inr (Frame.refl.pokeBytes fun a hlo hhi => List.mem_range'_1.2 ⟨hlo, by simpa using hhi⟩)⟩
  | ldRegI x =>
    have count : regCount x ≤ 16 := x.isLt
    simp only [exec, execLdRegI]
    split
    next => exact ⟨_, rfl, raised _ _⟩
    next => exact ⟨_, rfl, .inr (Frame.refl.setRegs (by simpa using count) fun r _ hr =>
      (mem_regRange count r).2 (by simpa using hr))⟩

/-- Everything the execute phase can do, as a frame (R72, R77): it raises a fault, or keeps to the footprint. -/
theorem exec_raises_or_frames {i : Instr} {s t : State} (h : exec i s = .next t) : RaisesOrFrames i s t := by
  obtain ⟨t', ht, hf⟩ := exec_next_raisesOrFrames i s
  rw [h] at ht
  cases ht
  exact hf

/-- Settles O21: a raised fault would leave the machine Faulted, so the frame is what is left. -/
theorem frameOfEveryInstruction : Obligations.FrameOfEveryInstruction := by
  intro i s t _ h ht
  obtain ⟨kind, info, rfl⟩ | hf := exec_raises_or_frames h
  · simp at ht
  · exact hf

/-- VF is in the footprint of an instruction only as a flag or as a named destination (R17). -/
theorem vf_mem_footprint {i : Instr} {s : State} (h : vf ∈ (footprint i s).regs) : WritesFlag i ∨ IsDestination vf i := by
  cases i with
  | addReg | subReg | shr | subn | shl | drw => exact .inl trivial
  | ldRegI x => exact .inr (Nat.le_of_lt_succ ((mem_regRange (n := regCount x) x.isLt vf).1 h))
  | ld | add | ldReg | or | and | xor | rnd | ldDt | ldK => exact .inr (List.mem_singleton.1 h)
  | _ => exact absurd h List.not_mem_nil

/-- Settles O20: a fault leaves every register, and the frame every register outside the footprint. -/
theorem onlyFlagWritersChangeVf : Obligations.OnlyFlagWritersChangeVf := by
  intro i s t h hvf
  obtain ⟨kind, info, rfl⟩ | hf := exec_raises_or_frames h
  · exact absurd (State.raise_getV s i kind info vf) hvf
  · exact vf_mem_footprint (Decidable.byContradiction fun hn => hvf (hf.regs vf hn))

end Sys2Proof.Machine
end

section
/-! What an instruction does not depend on (10_state.md R21 to R28, 20_memory.md R40): overwriting a part of the state that an
instruction does not touch commutes with its execute phase. The idea is one level up: ANY change of the state that commutes with
the operations on the parts an instruction touches commutes with the instruction; overwriting one part respects all the others. -/

namespace Sys2Proof.Machine

/-! ### Parts and overwrites -/

/-- The six parts of the state that only some instructions touch. -/
inductive Part where
  | mem
  | fb
  | stack
  | dt
  | st
  | index

/-- `s` with one part taken from `u`. -/
def overwrite (p : Part) (u s : State) : State :=
  match p with
  | .mem => { s with mem := u.mem }
  | .fb => { s with fb := u.fb }
  | .stack => { s with stack := u.stack, sp := u.sp }
  | .dt => { s with dt := u.dt }
  | .st => { s with st := u.st }
  | .index => { s with i := u.i }

/-- The parts an instruction touches: those its operations read or write (R21, R22, R23, R24, R26, R28, R40). -/
def touched : Instr → List Part
  | .cls => [.fb]
  | .ret | .call _ => [.stack]
  | .drw _ _ _ => [.mem, .fb, .index]
  | .ldDt _ | .ldDtSet _ => [.dt]
  | .ldStSet _ => [.st]
  | .ldI _ | .addI _ | .ldF _ => [.index]
  | .ldB _ | .ldIReg _ | .ldRegI _ => [.mem, .index]
  | .sys _ _ | .jp _ | .jpReg _ | .se _ _ | .sne _ _ | .seReg _ _ | .sneReg _ _ | .skp _ | .sknp _ => []
  | .ld _ _ | .add _ _ | .ldReg _ _ | .or _ _ | .and _ _ | .xor _ _ | .addReg _ _ | .subReg _ _ => []
  | .shr _ _ | .subn _ _ | .shl _ _ | .rnd _ _ | .ldK _ => []

/-- `f` leaves what the operations on a part read as it is, and commutes with what they write. -/
def Respects (f : State → State) : Part → Prop
  | .mem => ∀ s, (∀ a, (f s).peek a = s.peek a) ∧ ∀ a b, (f s).poke a b = f (s.poke a b)
  | .fb => ∀ s, (f s).fb = s.fb ∧ ∀ b, (f s).setFb b = f (s.setFb b)
  | .stack => ∀ s, (∀ w, (f s).push w = (s.push w).map f) ∧ (f s).pop = s.pop.map fun r => (r.1, f r.2)
  | .dt => ∀ s, (f s).dt = s.dt ∧ ∀ b, (f s).setDt b = f (s.setDt b)
  | .st => ∀ s b, (f s).setSt b = f (s.setSt b)
  | .index => ∀ s, (f s).i = s.i ∧ ∀ w, (f s).setI w = f (s.setI w)

/-- `f` leaves what every instruction may use, the registers, `pc`, the parameters and the draw counter, as it is, and commutes
with every write of it and with taking a fault. -/
structure RespectsCore (f : State → State) : Prop where
  getV : ∀ s r, (f s).getV r = s.getV r
  pc : ∀ s, (f s).pc = s.pc
  cfg : ∀ s, (f s).cfg = s.cfg
  draws : ∀ s, (f s).draws = s.draws
  setV : ∀ s x b, (f s).setV x b = f (s.setV x b)
  setPc : ∀ s w, (f s).setPc w = f (s.setPc w)
  drawn : ∀ s, (f s).drawn = f s.drawn
  takeFault : ∀ s k w o, (f s).takeFault k w o = f (s.takeFault k w o)

theorem overwrite_respectsCore (p : Part) (u : State) : RespectsCore (overwrite p u) := by
  cases p <;> constructor <;> intros <;> rfl

theorem overwrite_respects {p q : Part} (u : State) (h : p ≠ q) : Respects (overwrite p u) q := by
  cases q with
  | mem =>
    cases p with
    | mem => exact absurd rfl h
    | _ => exact fun s => ⟨fun _ => rfl, fun _ _ => rfl⟩
  | stack =>
    cases p with
    | stack => exact absurd rfl h
    | _ =>
      refine fun s => ⟨fun w => ?_, ?_⟩
      · by_cases room : s.sp.val < 16 <;> simp [State.push, overwrite, room]
      · by_cases occupied : 0 < s.sp.val <;> simp [State.pop, overwrite, occupied]
  | st =>
    cases p with
    | st => exact absurd rfl h
    | _ => exact fun s _ => rfl
  | fb =>
    cases p with
    | fb => exact absurd rfl h
    | _ => exact fun s => ⟨rfl, fun _ => rfl⟩
  | dt =>
    cases p with
    | dt => exact absurd rfl h
    | _ => exact fun s => ⟨rfl, fun _ => rfl⟩
  | index =>
    cases p with
    | index => exact absurd rfl h
    | _ => exact fun s => ⟨rfl, fun _ => rfl⟩

/-! ### The operations made of several writes -/

namespace RespectsCore

variable {f : State → State} (hf : RespectsCore f) (s : State)
include hf

theorem setVf (b : Byte) : (f s).setVf b = f (s.setVf b) := hf.setV s vf b

theorem rewindPc : (f s).rewindPc = f s.rewindPc := by
  simp only [State.rewindPc, hf.pc, hf.setPc]

theorem skipIf (c : Bool) : (f s).skipIf c = f (s.skipIf c) := by
  cases c
  · rfl
  · simp only [State.skipIf, State.advancePc, if_true, hf.pc, hf.setPc]

theorem raise (i : Instr) (kind : FaultKind) (info : Option Nat) : (f s).raise i kind info = f (s.raise i kind info) := by
  simp only [State.raise, hf.rewindPc, hf.takeFault]

theorem setSubnFlag (vx vy : Byte) : (f s).setSubnFlag vx vy = f (s.setSubnFlag vx vy) := by
  simp only [setSubnFlag_eq, hf.cfg, hf.setVf, apply_ite f]

theorem setRegs (k : Nat) (bs : List Byte) : (f s).setRegs k bs = f (s.setRegs k bs) := by
  induction bs generalizing s k with
  | nil => rfl
  | cons b bs ih => simp only [State.setRegs, hf.setV, ih]

theorem regBytes (n : Nat) : (f s).regBytes n = s.regBytes n := by
  simp only [State.regBytes, hf.getV]

end RespectsCore

section
variable {f : State → State} (s : State)

theorem Respects.peekBytes (h : Respects f .mem) (base n : Nat) : (f s).peekBytes base n = s.peekBytes base n := by
  induction n generalizing base with
  | zero => rfl
  | succ n ih => simp only [State.peekBytes, (h s).1, ih]

theorem Respects.pokeBytes (h : Respects f .mem) (base : Nat) (bs : List Byte) :
    (f s).pokeBytes base bs = f (s.pokeBytes base bs) := by
  induction bs generalizing s base with
  | nil => rfl
  | cons b bs ih => simp only [State.pokeBytes, (h s).2, ih]

theorem Respects.effAddr (h : Respects f .index) (k : Nat) : (f s).effAddr k = s.effAddr k := by
  simp only [State.effAddr, (h s).1]

end

/-! ### The execute phase -/

section
variable {f : State → State} (hf : RespectsCore f) {i : Instr} (h : ∀ p ∈ touched i, Respects f p) (s : State)
include hf h

/-- A change of the state that respects the parts an instruction touches commutes with its execute phase. -/
theorem exec_commutes : exec i (f s) = mapNext f (exec i s) := by
  cases i with
  | sys op nnn => rfl
  | cls =>
    have hfb := h .fb (by simp [touched])
    simp only [exec, execCls, (hfb s).2, mapNext]
  | ret =>
    have hstack := h .stack (by simp [touched])
    simp only [exec, execRet, (hstack s).2]
    cases s.pop with
    | none => exact congrArg _ (hf.raise s _ _ _)
    | some r => exact congrArg _ (hf.setPc r.2 r.1)
  | jp nnn => simp only [exec, execJp, hf.setPc, mapNext]
  | call nnn =>
    have hstack := h .stack (by simp [touched])
    simp only [exec, execCall, hf.pc, (hstack s).1]
    cases s.push s.pc with
    | none => exact congrArg _ (hf.raise s _ _ _)
    | some t => exact congrArg _ (hf.setPc t _)
  | se x kk => simp only [exec, execSe, hf.getV, hf.skipIf, mapNext]
  | sne x kk => simp only [exec, execSne, hf.getV, hf.skipIf, mapNext]
  | seReg x y => simp only [exec, execSeReg, hf.getV, hf.skipIf, mapNext]
  | sneReg x y => simp only [exec, execSneReg, hf.getV, hf.skipIf, mapNext]
  | ld x kk => simp only [exec, execLd, hf.setV, mapNext]
  | add x kk => simp only [exec, execAdd, hf.getV, hf.setV, mapNext]
  | ldReg x y => simp only [exec, execLdReg, hf.getV, hf.setV, mapNext]
  | or x y => simp only [exec, execOr, hf.getV, hf.setV, mapNext]
  | and x y => simp only [exec, execAnd, hf.getV, hf.setV, mapNext]
  | xor x y => simp only [exec, execXor, hf.getV, hf.setV, mapNext]
  | addReg x y => simp only [exec, execAddReg, hf.getV, hf.setV, hf.setVf, mapNext]
  | subReg x y => simp only [exec, execSubReg, hf.getV, hf.setV, hf.setVf, mapNext]
  | shr x y => simp only [exec, execShr, hf.getV, hf.setV, hf.setVf, mapNext]
  | subn x y => simp only [exec, execSubn, hf.getV, hf.setV, hf.setSubnFlag, mapNext]
  | shl x y => simp only [exec, execShl, hf.getV, hf.setV, hf.setVf, mapNext]
  | ldI nnn =>
    have hi := h .index (by simp [touched])
    simp only [exec, execLdI, (hi s).2, mapNext]
  | jpReg nnn => simp only [exec, execJpReg, hf.getV, hf.setPc, mapNext]
  | rnd x kk => simp only [exec, execRnd, State.sampleRandom, hf.draws, hf.drawn, hf.setV, mapNext]
  | drw x y n =>
    have hmem := h .mem (by simp [touched])
    have hfb := h .fb (by simp [touched])
    have hi := h .index (by simp [touched])
    simp only [exec, execDrw, hi.effAddr, hmem.peekBytes, hf.getV, (hfb _).1, (hfb _).2, hf.setVf, hf.raise]
    split <;> rfl
  | skp x =>
    simp only [exec, execSkp, hf.getV, State.sampleKeyDown, hf.draws, hf.drawn, hf.skipIf, hf.raise]
    split <;> rfl
  | sknp x =>
    simp only [exec, execSknp, hf.getV, State.sampleKeyDown, hf.draws, hf.drawn, hf.skipIf, hf.raise]
    split <;> rfl
  | ldDt x =>
    have hdt := h .dt (by simp [touched])
    simp only [exec, execLdDt, (hdt s).1, hf.setV, mapNext]
  | ldK x =>
    simp only [exec, execLdK, State.sampleNextKey, hf.draws, hf.drawn, hf.rewindPc, hf.setV, mapNext]
    split <;> rfl
  | ldDtSet x =>
    have hdt := h .dt (by simp [touched])
    simp only [exec, execLdDtSet, hf.getV, (hdt s).2, mapNext]
  | ldStSet x =>
    have hst := h .st (by simp [touched])
    simp only [exec, execLdStSet, hf.getV, hst s, mapNext]
  | addI x =>
    have hi := h .index (by simp [touched])
    simp only [exec, execAddI, hf.getV, (hi s).1, (hi s).2, mapNext]
  | ldF x =>
    have hi := h .index (by simp [touched])
    simp only [exec, execLdF, hf.getV, (hi s).2, mapNext]
  | ldB x =>
    have hmem := h .mem (by simp [touched])
    have hi := h .index (by simp [touched])
    simp only [exec, execLdB, hi.effAddr, hf.getV, hmem.pokeBytes, hf.raise]
    split <;> rfl
  | ldIReg x =>
    have hmem := h .mem (by simp [touched])
    have hi := h .index (by simp [touched])
    simp only [exec, execLdIReg, hi.effAddr, hf.regBytes, hmem.pokeBytes, hf.raise]
    split <;> rfl
  | ldRegI x =>
    have hmem := h .mem (by simp [touched])
    have hi := h .index (by simp [touched])
    simp only [exec, execLdRegI, hi.effAddr, hmem.peekBytes, hf.setRegs, hf.raise]
    split <;> rfl

end

/-- An instruction that does not touch a part does the same whatever the part holds, and leaves it as it is. -/
theorem exec_overwrite {p : Part} {i : Instr} (h : p ∉ touched i) (u s : State) :
    exec i (overwrite p u s) = mapNext (overwrite p u) (exec i s) :=
  exec_commutes (overwrite_respectsCore p u) (fun _ hq => overwrite_respects u (ne_of_mem_of_not_mem hq h).symm) s

/-- Settles O22: each clause is `exec_overwrite` for its part, or a timer write that reads no timer. -/
theorem untouchedStateIsIrrelevant : Obligations.UntouchedStateIsIrrelevant := by
  intro i s
  refine ⟨fun hdrw hldB hldIReg hldRegI m => ?_, fun hcls hdrw f => ?_, fun hret hcall k n => ?_, fun hldDt hldDtSet b => ?_,
    fun x b hi => ?_, fun hldStSet b => ?_, fun x b hi => ?_,
    fun hldI hldF haddI hdrw hldB hldIReg hldRegI w => ?_⟩
  · have untouched : Part.mem ∉ touched i := by cases i <;> simp_all [touched]
    exact exec_overwrite untouched { s with mem := m } s
  · have untouched : Part.fb ∉ touched i := by cases i <;> simp_all [touched]
    exact exec_overwrite untouched { s with fb := f } s
  · have untouched : Part.stack ∉ touched i := by cases i <;> simp_all [touched]
    exact exec_overwrite untouched { s with stack := k, sp := n } s
  · have untouched : Part.dt ∉ touched i := by cases i <;> simp_all [touched]
    exact exec_overwrite untouched { s with dt := b } s
  · subst hi; rfl
  · have untouched : Part.st ∉ touched i := by cases i <;> simp_all [touched]
    exact exec_overwrite untouched { s with st := b } s
  · subst hi; rfl
  · have untouched : Part.index ∉ touched i := by cases i <;> simp_all [touched]
    exact exec_overwrite untouched { s with i := w } s

end Sys2Proof.Machine
end

section
/-! Memory (20_memory.md): the canonical form holds each memory once, the range check names the lowest address out of range, and
a fetch reads the bytes stored before it. -/

namespace Sys2Proof.Machine

/-! ### The canonical form -/

theorem listed_eq_some_iff {m : Memory} (h : m.Pairwise (fun c d => c.1 < d.1)) (a : Nat) (b : Byte) :
    Memory.listed m a = some b ↔ (a, b) ∈ m := by
  induction m with
  | nil => simp [Memory.listed]
  | cons e m ih =>
    obtain ⟨c, d⟩ := e
    obtain ⟨first, rest⟩ := List.pairwise_cons.1 h
    rw [Memory.listed, List.mem_cons, Prod.mk.injEq]
    split
    next hc =>
      have notAbove : (a, b) ∉ m := fun hm => absurd (first _ hm) (by simp [hc])
      simp [hc, notAbove, eq_comm]
    next hc => simp [ih rest, Ne.symm hc]

theorem nodup_of_rising {m : Memory} (h : m.Pairwise (fun c d => c.1 < d.1)) : m.Nodup :=
  h.imp fun hcd e => Nat.ne_of_lt hcd (congrArg Prod.fst e)

/-- The entries of a memory in canonical form are its bytes that differ from what an unlisted address reads as. -/
theorem mem_iff_read {cfg : Config} {m : Memory} (h : Memory.wf cfg m) (a : Nat) (b : Byte) :
    (a, b) ∈ m ↔ Memory.read cfg m a = b ∧ b ≠ unlistedByte cfg a := by
  obtain ⟨rising, entries⟩ := h
  rw [← listed_eq_some_iff rising, Memory.read]
  cases hl : Memory.listed m a with
  | none => simpa using fun e : unlistedByte cfg a = b => e.symm
  | some d =>
    have differs : d ≠ unlistedByte cfg a := (entries _ ((listed_eq_some_iff rising a d).1 hl)).2
    simp only [Option.some.injEq, Option.getD_some]
    exact ⟨fun e => ⟨e, e ▸ differs⟩, And.left⟩

/-- Two memories in canonical form that read the same at every address are the same list: they have the same entries, in rising
order of address. -/
theorem eq_of_read_eq {cfg : Config} {m₁ m₂ : Memory} (h₁ : Memory.wf cfg m₁) (h₂ : Memory.wf cfg m₂)
    (h : ∀ a, Memory.read cfg m₁ a = Memory.read cfg m₂ a) : m₁ = m₂ := by
  have sameEntries : m₁.Perm m₂ :=
    (List.perm_ext_iff_of_nodup (nodup_of_rising h₁.1) (nodup_of_rising h₂.1)).2 fun ⟨a, b⟩ => by
      rw [mem_iff_read h₁, mem_iff_read h₂, h]
  exact sameEntries.eq_of_pairwise (fun _ _ _ _ hcd hdc => absurd hcd (Nat.lt_asymm hdc)) h₁.1 h₂.1

/-- Settles O13: a store keeps the form, which determines the list from what it reads as. -/
theorem memoryFormIsCanonical : Obligations.MemoryFormIsCanonical :=
  ⟨fun _ _ b h ha => poke_wf h (Nat.lt_succ_of_le ha) b, fun _ _ _ h₁ h₂ h => eq_of_read_eq h₁ h₂ h⟩

/-! ### The bytes of a fetched word -/

@[simp] theorem highByte_wordOfBytes (hi lo : Byte) : highByte (wordOfBytes hi lo) = hi := by
  apply BitVec.eq_of_toNat_eq
  have := lo.isLt
  rw [highByte_toNat, wordOfBytes_toNat]
  omega

@[simp] theorem lowByte_wordOfBytes (hi lo : Byte) : lowByte (wordOfBytes hi lo) = lo := by
  apply BitVec.eq_of_toNat_eq
  have := lo.isLt
  rw [lowByte_toNat, wordOfBytes_toNat]
  omega

theorem highByte_of_fetch {s : State} {a : Nat} {w : Word} (h : s.fetch a = .ok w) : highByte w = s.peek a := by
  obtain ⟨-, rfl⟩ := fetch_eq_ok.1 h
  exact highByte_wordOfBytes _ _

theorem lowByte_of_fetch {s : State} {a : Nat} {w : Word} (h : s.fetch a = .ok w) : lowByte w = s.peek (a + 1) := by
  obtain ⟨-, rfl⟩ := fetch_eq_ok.1 h
  exact lowByte_wordOfBytes _ _

/-! ### Stores in a step -/

theorem peek_pokeBytes_add (s : State) (base : Nat) {bs : List Byte} {k : Nat} (h : k < bs.length) :
    (s.pokeBytes base bs).peek (base + k) = bs[k] := by
  rw [peek_pokeBytes, dif_pos ⟨by omega, by omega⟩]
  simp

theorem decodeWord_ldIReg (x : RegIdx) : decodeWord (packXKK 0xF#4 x 0x55#8) = .ldIReg x := by
  simp [decodeWord, decodeF]

theorem decodeWord_ldB (x : RegIdx) : decodeWord (packXKK 0xF#4 x 0x33#8) = .ldB x := by
  simp [decodeWord, decodeF]

theorem decimalDigits_map_toNat (b : Byte) :
    (decimalDigits b).map BitVec.toNat = [b.toNat / 100, b.toNat / 10 % 10, b.toNat % 10] := by
  have := b.isLt
  simp only [decimalDigits, List.map_cons, List.map_nil, BitVec.toNat_ofNat, List.cons.injEq, and_true]
  omega

/-- A step that leaves the machine running has executed the word it fetched with no fault, and aged the timers (R72, R76). -/
theorem exec_of_clean_step {s t : State} {w : Word} (hstep : step s = .next t) (ht : t.status = .running)
    (hf : s.fetch s.pc.toNat = .ok w) :
    ∃ u, exec (decodeWord w) s.advancePc = .next u ∧ u.status = .running ∧ t = u.ageTimers := by
  obtain ⟨-, ⟨_, -, rfl⟩ | ⟨w', u, hf', hu, rfl⟩⟩ := step_cases hstep
  · simp at ht
  · cases hf.symm.trans hf'
    cases hfault : u.isFaulted with
    | false =>
      have aged : u.finish = u.ageTimers := by simp [State.finish, hfault]
      exact ⟨u, hu, by simpa [aged] using ht, aged⟩
    | true =>
      obtain ⟨rec, hrec⟩ := (isFaulted_iff u).1 hfault
      simp [finish_of_faulted hrec, hrec] at ht

/-- LD_I_REG without a fault stores `V[0]` to `V[x]` from `I` on (R134). -/
theorem execLdIReg_of_running {s u : State} {x : RegIdx} (h : execLdIReg x s = .next u) (hu : u.status = .running) :
    u = s.pokeBytes (s.effAddr 0) (s.regBytes (regCount x)) := by
  unfold execLdIReg at h
  split at h <;> cases h
  · simp at hu
  · rfl

/-- LD_B without a fault stores the decimal digits of `V[x]` from `I` on (R133). -/
theorem execLdB_of_running {s u : State} {x : RegIdx} (h : execLdB x s = .next u) (hu : u.status = .running) :
    u = s.pokeBytes (s.effAddr 0) (decimalDigits (s.getV x)) := by
  unfold execLdB at h
  split at h <;> cases h
  · simp at hu
  · rfl

section
variable {s t : State} {x : RegIdx} (hstep : step s = .next t) (ht : t.status = .running)
include hstep ht

/-- After a clean step of LD_I_REG the byte at `I + k` is `V[k]`. -/
theorem peek_after_ldIReg (hf : s.fetch s.pc.toNat = .ok (packXKK 0xF#4 x 0x55#8)) {k : RegIdx} (hk : k.toNat ≤ x.toNat) :
    t.peek (s.i.toNat + k.toNat) = s.getV k := by
  obtain ⟨u, hu, hrun, rfl⟩ := exec_of_clean_step hstep ht hf
  rw [decodeWord_ldIReg] at hu
  have listed : k.toNat < (s.advancePc.regBytes (regCount x)).length := by rw [regBytes_length, regCount]; omega
  calc u.ageTimers.peek (s.i.toNat + k.toNat)
      = (s.advancePc.pokeBytes s.i.toNat (s.advancePc.regBytes (regCount x))).peek (s.i.toNat + k.toNat) := by
        rw [execLdIReg_of_running hu hrun]; rfl
    _ = (s.advancePc.regBytes (regCount x))[k.toNat] := peek_pokeBytes_add _ _ listed
    _ = s.getV k := by simp [regBytes_getElem]

/-- After a clean step of LD_B the byte at `I + k` is digit `k` of `V[x]`. -/
theorem peek_after_ldB (hf : s.fetch s.pc.toNat = .ok (packXKK 0xF#4 x 0x33#8)) {k : Nat} (hk : k < 3) :
    (t.peek (s.i.toNat + k)).toNat =
      [(s.getV x).toNat / 100, (s.getV x).toNat / 10 % 10, (s.getV x).toNat % 10][k] := by
  obtain ⟨u, hu, hrun, rfl⟩ := exec_of_clean_step hstep ht hf
  rw [decodeWord_ldB] at hu
  have stored : u.peek (s.i.toNat + k) = (decimalDigits (s.getV x))[k]'hk := by
    rw [execLdB_of_running hu hrun]
    exact peek_pokeBytes_add s.advancePc s.i.toNat hk
  simp only [← decimalDigits_map_toNat, List.getElem_map]
  exact congrArg BitVec.toNat stored

end

/-- Settles O15: the byte a store left at an address is the high byte of the word fetched there and the low byte of the word
fetched one below. -/
theorem storesAreSeenByTheNextFetch : Obligations.StoresAreSeenByTheNextFetch := by
  intro s t x _ hstep ht
  refine ⟨fun hf k hk => ?_, fun hf => ?_⟩
  · have stored := peek_after_ldIReg hstep ht hf hk
    exact ⟨fun w hw => (highByte_of_fetch hw).trans stored,
      fun a w ha hw => by rw [lowByte_of_fetch hw, ha, stored]⟩
  · have hundreds : (t.peek s.i.toNat).toNat = (s.getV x).toNat / 100 := peek_after_ldB hstep ht hf (k := 0) (by decide)
    have tens : (t.peek (s.i.toNat + 1)).toNat = (s.getV x).toNat / 10 % 10 := peek_after_ldB hstep ht hf (by decide)
    have ones : (t.peek (s.i.toNat + 2)).toNat = (s.getV x).toNat % 10 := peek_after_ldB hstep ht hf (by decide)
    refine ⟨fun w hw => ?_, fun a w ha hw => ?_, fun w hw => ?_, fun w hw => ?_, fun w hw => ?_, fun w hw => ?_⟩
    · rw [highByte_of_fetch hw, hundreds]
    · rw [lowByte_of_fetch hw, ha, hundreds]
    · rw [highByte_of_fetch hw, tens]
    · rw [lowByte_of_fetch hw, tens]
    · rw [highByte_of_fetch hw, ones]
    · rw [lowByte_of_fetch hw, ones]

/-! ### Single accesses -/

/-- Settles O4: the word of two bytes is big-endian, and its top nibbles are those of the byte at `pc`. -/
theorem fetchIsBigEndian : Obligations.FetchIsBigEndian := by
  intro s hpc
  have low := (s.peek (s.pc.toNat + 1)).isLt
  refine ⟨_, fetch_eq_ok.2 ⟨hpc, rfl⟩, wordOfBytes_toNat _ _, ?_, ?_⟩
  · rw [opOf_toNat, wordOfBytes_toNat]; omega
  · rw [xOf_toNat, wordOfBytes_toNat]; omega

theorem memRead_of_le {s : State} {a : Nat} (h : a ≤ 0xFFF) : s.memRead a = .ok (s.peek a) := if_neg (by omega)

theorem memRead_of_gt {s : State} {a : Nat} (h : a > 0xFFF) : s.memRead a = .error a := if_pos h

theorem memRead_poke_ne (s : State) {a c : Nat} (b : Byte) (h : c ≠ a) : (s.poke a b).memRead c = s.memRead c := by
  simp only [State.memRead, peek_poke, if_neg h]

theorem Frame.poke (s : State) (a : Nat) (b : Byte) : Frame { stored := [a] } s (s.poke a b) :=
  Frame.refl.pokeBytes (bs := [b]) fun c h₁ h₂ => List.mem_singleton.2 (by rw [List.length_singleton] at h₂; omega)

/-- Settles O12: a write in range is a poke; out of range both accesses raise the address. -/
theorem memoryReadsWhatWasWritten : Obligations.MemoryReadsWhatWasWritten := by
  intro s a b
  refine ⟨fun ha => ⟨s.poke a b, if_neg (by omega), ?_, fun c hc => memRead_poke_ne s b hc, .poke s a b⟩,
    fun ha => ⟨if_pos ha, memRead_of_gt ha⟩⟩
  rw [memRead_of_le ha, peek_poke_same]

/-! ### The range check -/

/-- Settles O14: `max base 0x1000` is the one address that is out of range with every lower one in range. -/
theorem rangeCheckNamesLowestAddress : Obligations.RangeCheckNamesLowestAddress := by
  refine fun base n => ⟨rangeFault_eq_none base n, fun a => ⟨fun h => ?_, fun ⟨hlo, hhi, hout, hleast⟩ => ?_⟩⟩
  · obtain ⟨hn, hlast, rfl⟩ := rangeFault_eq_some h
    exact ⟨by omega, by omega, by omega, fun b _ hb => by omega⟩
  · have lowest : max base 0x1000 = a := by
      have := hleast (max base 0x1000) (by omega)
      omega
    rw [rangeFault, if_pos (by omega), lowest]

end Sys2Proof.Machine
end

section
/-! Encoding (30_encoding.md R55 to R69). A row's mask and value fix the fields that the decoder dispatches on; the words of no
row are the words of R63; so decoding is the opcode map, and `encode` is its inverse on well-formed instructions. -/

namespace Sys2Proof.Machine

/-! ### The fields a row fixes -/

section
variable (w : Word)

theorem nnnOf_mod_16 : (nnnOf w).toNat % 16 = (nOf w).toNat := by rw [nnnOf_toNat, nOf_toNat]; omega

theorem nnnOf_mod_256 : (nnnOf w).toNat % 256 = (kkOf w).toNat := by rw [nnnOf_toNat, kkOf_toNat]; omega

/-- A word is `v` when the two fields `op` and `nnn` are those of `v`. -/
theorem eq_word_iff (v : Word) : v = w ↔ (opOf w).toNat = v.toNat / 4096 ∧ (nnnOf w).toNat = v.toNat % 4096 := by
  rw [← BitVec.toNat_inj, opOf_toNat, nnnOf_toNat]; omega

/-! Under each of the four masks of R62, a word is the row's value when the fields the mask keeps are those of the value: the
numbers the decoder dispatches on. -/

variable {v : Word}

@[simp] theorem and_FFFF_eq_iff :
    w &&& 0xFFFF#16 = v ↔ (opOf w).toNat = v.toNat / 4096 ∧ (nnnOf w).toNat = v.toNat % 4096 := by
  rw [show w &&& 0xFFFF#16 = w from BitVec.and_allOnes, eq_comm, eq_word_iff]

@[simp] theorem and_F000_eq_iff (hv : v.toNat % 4096 = 0) : w &&& 0xF000#16 = v ↔ (opOf w).toNat = v.toNat / 4096 := by
  rw [(word_and_masks w).1, ← BitVec.toNat_inj, packXYN_toNat]
  simp only [BitVec.ofNat_eq_ofNat, BitVec.toNat_ofNat]; omega

@[simp] theorem and_F00F_eq_iff (hv : v.toNat / 16 % 256 = 0) :
    w &&& 0xF00F#16 = v ↔ (opOf w).toNat = v.toNat / 4096 ∧ (nOf w).toNat = v.toNat % 16 := by
  rw [(word_and_masks w).2.1, ← BitVec.toNat_inj, packXYN_toNat]
  simp only [BitVec.ofNat_eq_ofNat, BitVec.toNat_ofNat]; omega

@[simp] theorem and_F0FF_eq_iff (hv : v.toNat / 256 % 16 = 0) :
    w &&& 0xF0FF#16 = v ↔ (opOf w).toNat = v.toNat / 4096 ∧ (kkOf w).toNat = v.toNat % 256 := by
  rw [(word_and_masks w).2.2, ← BitVec.toNat_inj, packXYN_toNat, yOf_toNat, nOf_toNat, kkOf_toNat]
  simp only [BitVec.ofNat_eq_ofNat, BitVec.toNat_ofNat]; omega

/-! A word is packed from fields when those are its fields; the fields that a row fixes are compared as numbers. -/

variable {op n : Nibble} {x y : RegIdx} {kk : Byte} {nnn : Addr12}

theorem packNNN_eq_iff : packNNN op nnn = w ↔ (opOf w).toNat = op.toNat ∧ nnnOf w = nnn := by
  rw [BitVec.toNat_inj]
  refine ⟨?_, ?_⟩
  · rintro rfl; simp
  · rintro ⟨rfl, rfl⟩; exact packNNN_fields w

theorem packXKK_eq_iff : packXKK op x kk = w ↔ (opOf w).toNat = op.toNat ∧ xOf w = x ∧ (kkOf w).toNat = kk.toNat := by
  rw [BitVec.toNat_inj, BitVec.toNat_inj]
  refine ⟨?_, ?_⟩
  · rintro rfl; simp
  · rintro ⟨rfl, rfl, rfl⟩; exact packXKK_fields w

theorem packXYN_eq_iff :
    packXYN op x y n = w ↔ (opOf w).toNat = op.toNat ∧ xOf w = x ∧ yOf w = y ∧ (nOf w).toNat = n.toNat := by
  rw [BitVec.toNat_inj, BitVec.toNat_inj]
  refine ⟨?_, ?_⟩
  · rintro rfl; simp
  · rintro ⟨rfl, rfl, rfl, rfl⟩; exact packXYN_fields w

end

/-! ### The rows of the opcode map -/

/-- The decoder follows the opcode map (R62): the fields a row fixes choose the branch that holds the row's instruction. -/
theorem decodeWord_of_row : ∀ row ∈ opcodeRows, ∀ w : Word, w &&& row.mask = row.val → decodeWord w = row.make w := by
  simp +contextual [opcodeRows, decodeWord, decode0, decode5, decode8, decode9, decodeE, decodeF]

/-- Encoding a row's instruction puts back the fields the row fixes. -/
theorem encode_make : ∀ row ∈ opcodeRows, ∀ w : Word, w &&& row.mask = row.val → encode (row.make w) = w := by
  simp +contextual [opcodeRows, encode, packNNN_eq_iff, packXKK_eq_iff, packXYN_eq_iff, eq_word_iff _ 0x00E0#16,
    eq_word_iff _ 0x00EE#16]

theorem mnemonicOf_make : ∀ row ∈ opcodeRows, ∀ w, mnemonicOf (row.make w) = row.mnemonic := by
  simp [opcodeRows, mnemonicOf]

theorem make_wf : ∀ row ∈ opcodeRows, ∀ w, (row.make w).wf = true := by
  simp [opcodeRows, Instr.wf]

theorem mnemonicOf_decodeWord_of_row {row : OpcodeRow} (hr : row ∈ opcodeRows) {w : Word} (h : w &&& row.mask = row.val) :
    mnemonicOf (decodeWord w) = row.mnemonic := by
  rw [decodeWord_of_row row hr w h, mnemonicOf_make row hr]

/-! ### The words of no row -/

/-- The words of R63 are those that no row of R62 claims. In families 0, 5, 8, 9, E and F the two sides exclude the same
values of the field that the family dispatches on; every other family is one row. -/
theorem fallbackWord_iff (w : Word) :
    fallbackWord (opOf w) (nnnOf w) = true ↔ ∀ row ∈ opcodeRows, w &&& row.mask ≠ row.val := by
  unfold fallbackWord
  split
  next op0 => simp [opcodeRows, op0]
  next op5 => simp [opcodeRows, op5, nnnOf_mod_16]
  next op8 =>
    have := (nOf w).isLt
    simp [opcodeRows, op8, nnnOf_mod_16]
    omega
  next op9 => simp [opcodeRows, op9, nnnOf_mod_16]
  next opE => simp [opcodeRows, opE, nnnOf_mod_256]
  next opF => simp [opcodeRows, opF, nnnOf_mod_256]
  next =>
    have := (opOf w).isLt
    simp_all [opcodeRows]
    omega

/-- In each family of R63 a fallback word misses every value the family's decoder names. -/
theorem decodeWord_of_fallbackWord {w : Word} (h : fallbackWord (opOf w) (nnnOf w) = true) :
    decodeWord w = .sys (opOf w) (nnnOf w) := by
  change decodeWord w = decodeFallback w
  unfold fallbackWord at h
  split at h
  next op0 =>
    simp at h
    simp [decodeWord, op0, decode0, h]
  next op5 =>
    simp [nnnOf_mod_16] at h
    simp [decodeWord, op5, decode5]
  next op8 =>
    simp [nnnOf_mod_16] at h
    rcases h with h | h | h | h | h | h | h <;> simp [decodeWord, op8, decode8, h]
  next op9 =>
    simp [nnnOf_mod_16] at h
    simp [decodeWord, op9, decode9]
  next opE =>
    simp [nnnOf_mod_256] at h
    simp [decodeWord, opE, decodeE, h]
  next opF =>
    simp [nnnOf_mod_256] at h
    simp [decodeWord, opF, decodeF, h]
  next => cases h

theorem decodeWord_of_no_row {w : Word} (h : ∀ row ∈ opcodeRows, w &&& row.mask ≠ row.val) :
    decodeWord w = .sys (opOf w) (nnnOf w) := decodeWord_of_fallbackWord ((fallbackWord_iff w).2 h)

theorem row_or_fallbackWord (w : Word) :
    (∃ row ∈ opcodeRows, w &&& row.mask = row.val) ∨ fallbackWord (opOf w) (nnnOf w) = true :=
  (Classical.em _).imp_right fun h => (fallbackWord_iff w).2 fun row hr hw => h ⟨row, hr, hw⟩

/-! ### Decoding and encoding -/

/-- A packed word has the fields it was packed from, so it decodes in its own family, by the field that family dispatches on. -/
theorem decodeWord_encode {i : Instr} (h : i.wf = true) : decodeWord (encode i) = i := by
  cases i with
  | sys op nnn => simpa [encode] using decodeWord_of_fallbackWord (Laws.RowMatches.sys op nnn h)
  | cls | ret => rfl
  | jp | call | ldI | jpReg | se | sne | ld | add | rnd | drw => simp [encode, decodeWord]
  | seReg => simp [encode, decodeWord, decode5]
  | sneReg => simp [encode, decodeWord, decode9]
  | ldReg | or | and | xor | addReg | subReg | shr | subn | shl => simp [encode, decodeWord, decode8]
  | skp | sknp => simp [encode, decodeWord, decodeE]
  | ldDt | ldK | ldDtSet | ldStSet | addI | ldF | ldB | ldIReg | ldRegI => simp [encode, decodeWord, decodeF]

/-- Settles O7: the two bytes of an instruction join to its word, which decodes to it. -/
theorem decodeOfEncode : Obligations.DecodeOfEncode := by
  intro i h
  refine ⟨decodeWord_encode h, fun rest => ?_⟩
  simp only [encodeBytes, List.cons_append, List.nil_append, decodeBytes, wordOfBytes_high_low, decodeWord_encode h]

/-- Settles O8: row by row of the opcode map, and for the words of R63. -/
theorem encodeOfDecode : Obligations.EncodeOfDecode := by
  intro w
  obtain ⟨row, hr, h⟩ | h := row_or_fallbackWord w
  · rw [decodeWord_of_row row hr w h]
    exact ⟨make_wf row hr w, encode_make row hr w h⟩
  · rw [decodeWord_of_fallbackWord h]
    exact ⟨h, packNNN_fields w⟩

/-- Settles O9: two rows that match one word have the mnemonic of the instruction it decodes to. -/
theorem opcodeMapIsDecoded : Obligations.OpcodeMapIsDecoded :=
  ⟨decodeWord_of_row,
    fun _ hr₁ _ hr₂ _ h₁ h₂ => (mnemonicOf_decodeWord_of_row hr₁ h₁).symm.trans (mnemonicOf_decodeWord_of_row hr₂ h₂),
    fun _ => decodeWord_of_no_row⟩

/-- Settles O11, by evaluating the decoder on the 24 words. -/
theorem sampleWordsDecode : Obligations.SampleWordsDecode := by
  unfold Obligations.SampleWordsDecode
  decide

/-! ### The disassembly -/

/-- An instruction's text is its mnemonic, alone or before a space and the operands (R67). -/
theorem instrText_eq (i : Instr) :
    instrText i = mnemonicOf i ∨ ∃ operands, instrText i = mnemonicOf i ++ " " ++ operands := by
  unfold instrText
  split
  next => exact .inl rfl
  next =>
    exact .inr ⟨_, List.foldl_hom (mnemonicOf i ++ " " ++ ·) (g₁ := (· ++ ", " ++ ·))
      fun t u => by simp only [String.append_assoc]⟩

/-- Settles O10: a word of a row prints with the row's mnemonic, and a word of no row as the SYS it decodes to. -/
theorem disassemblyNamesTheRow : Obligations.DisassemblyNamesTheRow := by
  refine fun w => ⟨fun row hr h => ?_, fun h => ?_⟩
  · have named := mnemonicOf_decodeWord_of_row hr h
    exact ⟨named, named ▸ instrText_eq (decodeWord w)⟩
  · calc disassemble w = "SYS" ++ " " ++ addrText (nnnOf w) := congrArg instrText (decodeWord_of_no_row h)
      _ = "SYS " ++ addrText (nnnOf w) := rfl

end Sys2Proof.Machine
end

section
/-! The step cycle (40_step_cycle.md R70 to R80): the status check, the two ways a step of a running machine ends, what a step
does to the timers, and the samples of the input ports that an instruction takes. -/

namespace Sys2Proof.Machine

/-! ### The status check and the result -/

theorem step_of_unloaded {s : State} (h : s.status = .unloaded) : step s = .refused .notLoaded := by simp [step, h]

theorem step_of_faulted {s : State} {rec : FaultRecord} (h : s.status = .faulted rec) :
    step s = .fault (.alreadyFaulted rec) := by simp [step, h]

/-- The result of a step that leaves the machine running (R80). -/
theorem stepResult_of_running {s t : State} (h : step s = .next t) (ht : t.status = .running) : s.stepResult = .ok := by
  simp [State.stepResult, h, ht]

/-- The result of the step that takes a fault (R80). -/
theorem stepResult_of_faulted {s t : State} {rec : FaultRecord} (h : step s = .next t) (ht : t.status = .faulted rec) :
    s.stepResult = .fault rec := by
  simp [State.stepResult, h, ht]

/-- Settles O3: each status but Running answers before anything is fetched. -/
theorem statusIsCheckedFirst : Obligations.StatusIsCheckedFirst := by
  refine fun s => ⟨fun h => ⟨step_of_unloaded h, ?_⟩, fun rec h => ⟨step_of_faulted h, ?_⟩⟩
  · simp [State.stepResult, step_of_unloaded h]
  · simp [State.stepResult, step_of_faulted h]

/-! ### Fetch -/

/-- Settles O5: a fetch fails exactly from 0xFFF on, with the address `max pc 0x1000`, and the step takes that fault. -/
theorem fetchFaultsOutOfRange : Obligations.FetchFaultsOutOfRange := by
  refine fun s => ⟨fun hpc => ⟨_, fetch_eq_ok.2 ⟨hpc, rfl⟩⟩, fun hpc => ?_⟩
  have hf : s.fetch s.pc.toNat = .error (max s.pc.toNat 0x1000) := fetch_eq_error.2 ⟨hpc, rfl⟩
  exact ⟨hf, fun hs => step_of_fetch_error hs hf⟩

/-! ### The end of a step -/

theorem finish_of_not_faulted {s : State} (h : ∀ rec, s.status ≠ .faulted rec) : s.finish = s.ageTimers :=
  if_neg fun hf => let ⟨rec, hrec⟩ := (isFaulted_iff s).1 hf; h rec hrec

/-- Settles O1: the two bytes at `pc` are the fetched word's, and `State.finish` ages the timers of a machine that is not
faulted. -/
theorem stepRunsTheDecodedInstruction : Obligations.StepRunsTheDecodedInstruction := by
  intro s i hs hpc hdec
  cases hdec
  obtain ⟨u, hu⟩ := exec_next (decodeWord (wordOfBytes (s.peek s.pc.toNat) (s.peek (s.pc.toNat + 1)))) s.advancePc
  refine ⟨(encodeOfDecode _).1, ?_⟩
  rw [step_of_fetch_ok hs (fetch_eq_ok.2 ⟨hpc, rfl⟩) hu, ← State.setPc, ← State.advancePc, hu]
  dsimp only
  split
  next hst => rw [finish_of_faulted hst]
  next hst => rw [finish_of_not_faulted (by simp [hst])]; rfl
  next hst => rw [finish_of_not_faulted (by simp [hst])]; rfl

/-! ### How a step of a running machine ends -/

theorem footprint_status (i : Instr) (s : State) : (footprint i s).status = false := by
  cases i <;> rfl

/-- The execute phase of a running machine raises a fault or leaves the machine running (R75, R77). -/
theorem exec_raises_or_runs {i : Instr} {s t : State} (hs : s.status = .running) (h : exec i s = .next t) :
    (∃ kind info, t = s.raise i kind info) ∨ t.status = .running :=
  (exec_raises_or_frames h).imp_right fun hf => (hf.status (footprint_status i s)).trans hs

/-- A fault raised in the execute phase of the word `w` is a fault taken from the state of before the step (R178). -/
theorem raise_advancePc (s : State) (w : Word) (kind : FaultKind) (info : Option Nat) :
    s.advancePc.raise (decodeWord w) kind info = s.takeFault kind (some w) info := by
  rw [State.raise, rewindPc_advancePc, (encodeOfDecode w).2]

/-- A step of a running machine ends in one of three ways: its fetch fails; the fetched word's execute phase raises a fault; or
the phase completes, and the timers are aged (R72, R73, R76, R77). -/
theorem step_faults_or_completes {s t : State} (h : step s = .next t) :
    (∃ a, s.fetch s.pc.toNat = .error a ∧ t = s.takeFault .outOfBounds none (some a)) ∨
      ∃ w, s.fetch s.pc.toNat = .ok w ∧
        ((∃ kind info, t = s.takeFault kind (some w) info) ∨
          ∃ u, exec (decodeWord w) s.advancePc = .next u ∧ u.status = .running ∧ t = u.ageTimers) := by
  obtain ⟨hs, hfetch | ⟨w, u, hf, hu, rfl⟩⟩ := step_cases h
  · exact .inl hfetch
  · refine .inr ⟨w, hf, ?_⟩
    obtain ⟨kind, info, rfl⟩ | hrun := exec_raises_or_runs (s := s.advancePc) hs hu
    · exact .inl ⟨kind, info, by rw [finish_of_faulted (State.raise_status _ _ _ _), raise_advancePc]⟩
    · exact .inr ⟨u, hu, hrun, finish_of_running hrun⟩

theorem step_next {s : State} (hs : s.status = .running) : ∃ t, step s = .next t := by
  cases hf : s.fetch s.pc.toNat with
  | error a => exact ⟨_, step_of_fetch_error hs hf⟩
  | ok w =>
    obtain ⟨u, hu⟩ := exec_next (decodeWord w) s.advancePc
    exact ⟨_, step_of_fetch_ok hs hf hu⟩

/-- Settles O2: both fault endings leave the machine Faulted, the clean one leaves it running. -/
theorem runningStepAlwaysAnswers : Obligations.RunningStepAlwaysAnswers := by
  intro s hs
  obtain ⟨t, h⟩ := step_next hs
  refine ⟨t, h, ?_⟩
  obtain ⟨a, -, rfl⟩ | ⟨w, -, ⟨kind, info, rfl⟩ | ⟨u, -, hrun, rfl⟩⟩ := step_faults_or_completes h
  · exact .inr ⟨_, rfl, stepResult_of_faulted h rfl⟩
  · exact .inr ⟨_, rfl, stepResult_of_faulted h rfl⟩
  · exact .inl ⟨hrun, stepResult_of_running h hrun⟩

/-- Settles O19: both fault endings take the fault from the state of before the step, with the word fetched if there is one; a
clean step leaves no record. -/
theorem faultsArePreciseAndSticky : Obligations.FaultsArePreciseAndSticky := by
  intro s t rec _ h ht
  obtain ⟨a, hf, rfl⟩ | ⟨w, hf, ⟨kind, info, rfl⟩ | ⟨u, -, hrun, rfl⟩⟩ := step_faults_or_completes h
  · cases ht
    exact ⟨rfl, rfl, fun w hw => by simp [hf] at hw, fun b hb => by cases hf.symm.trans hb; exact ⟨rfl, rfl, rfl⟩,
      step_of_faulted rfl⟩
  · cases ht
    exact ⟨rfl, rfl, fun v hv => by cases hf.symm.trans hv; rfl, fun a ha => by simp [hf] at ha, step_of_faulted rfl⟩
  · cases hrun.symm.trans ht

/-! ### The timers -/

/-- LD_DT_SET is the one instruction that writes DT (R23). -/
theorem footprint_dt {i : Instr} (h : ∀ x, i ≠ .ldDtSet x) (s : State) : (footprint i s).dt = false := by
  cases i with
  | ldDtSet x => exact absurd rfl (h x)
  | _ => rfl

/-- LD_ST_SET is the one instruction that writes ST (R24). -/
theorem footprint_st {i : Instr} (h : ∀ x, i ≠ .ldStSet x) (s : State) : (footprint i s).st = false := by
  cases i with
  | ldStSet x => exact absurd rfl (h x)
  | _ => rfl

theorem exec_keeps_dt {i : Instr} {s t : State} (hi : ∀ x, i ≠ .ldDtSet x) (h : exec i s = .next t) : t.dt = s.dt := by
  obtain ⟨kind, info, rfl⟩ | hf := exec_raises_or_frames h
  · rfl
  · exact hf.dt (footprint_dt hi s)

theorem exec_keeps_st {i : Instr} {s t : State} (hi : ∀ x, i ≠ .ldStSet x) (h : exec i s = .next t) : t.st = s.st := by
  obtain ⟨kind, info, rfl⟩ | hf := exec_raises_or_frames h
  · rfl
  · exact hf.st (footprint_st hi s)

theorem exec_ldDtSet_dt {x : RegIdx} {s t : State} (h : exec (.ldDtSet x) s = .next t) : t.dt = s.getV x := by
  cases h; rfl

theorem exec_ldStSet_st {x : RegIdx} {s t : State} (h : exec (.ldStSet x) s = .next t) : t.st = s.getV x := by
  cases h; rfl

/-- Settles O6: a clean step ages what the execute phase left, which is the old value unless the instruction writes the timer;
a fault leaves both timers. -/
theorem timersAgeOncePerCleanStep : Obligations.TimersAgeOncePerCleanStep := by
  intro s t w _ hf h
  obtain ⟨a, hf', -⟩ | ⟨w', hf', ending⟩ := step_faults_or_completes h
  · cases hf.symm.trans hf'
  · cases hf.symm.trans hf'
    obtain ⟨kind, info, rfl⟩ | ⟨u, hu, hrun, rfl⟩ := ending
    · exact ⟨nofun, fun _ => ⟨rfl, rfl⟩⟩
    · refine ⟨fun _ => ⟨?_, ?_⟩, fun ht => absurd hrun ht⟩
      · rw [State.ageTimers_dt, ageTimer_toNat]
        split
        next x hi => rw [exec_ldDtSet_dt (hi ▸ hu), State.advancePc_getV]
        next hi => rw [exec_keeps_dt hi hu, State.advancePc_dt]
      · rw [State.ageTimers_st, ageTimer_toNat]
        split
        next x hi => rw [exec_ldStSet_st (hi ▸ hu), State.advancePc_getV]
        next hi => rw [exec_keeps_st hi hu, State.advancePc_st]

/-! ### Samples of the input ports -/

section
variable {x : RegIdx} {s t : State}

theorem exec_rnd_draws {kk : Byte} (h : exec (.rnd x kk) s = .next t) : t.draws = s.draws + 1 := by
  cases h; rfl

theorem exec_ldK_draws (h : exec (.ldK x) s = .next t) : t.draws = s.draws + 1 := by
  cases h
  split <;> rfl

/-- SKP samples its key, or raises a fault before it does (R143). -/
theorem exec_skp_draws_le (h : exec (.skp x) s = .next t) : t.draws ≤ s.draws + 1 := by
  rw [exec, execSkp] at h
  split at h <;> cases h
  · exact Nat.le_succ s.draws
  · exact Nat.le_of_eq (skipIf_draws s.drawn _)

/-- SKNP samples its key, or raises a fault before it does (R144). -/
theorem exec_sknp_draws_le (h : exec (.sknp x) s = .next t) : t.draws ≤ s.draws + 1 := by
  rw [exec, execSknp] at h
  split at h <;> cases h
  · exact Nat.le_succ s.draws
  · exact Nat.le_of_eq (skipIf_draws s.drawn _)

end

/-- The draw counter is in the footprint of the four samplers only (R71). -/
theorem sampler_of_footprint_draws {i : Instr} {s : State} (h : (footprint i s).draws = true) :
    (∃ x kk, i = .rnd x kk) ∨ (∃ x, i = .skp x) ∨ (∃ x, i = .sknp x) ∨ ∃ x, i = .ldK x := by
  cases i with
  | rnd x kk => exact .inl ⟨x, kk, rfl⟩
  | skp x => exact .inr (.inl ⟨x, rfl⟩)
  | sknp x => exact .inr (.inr (.inl ⟨x, rfl⟩))
  | ldK x => exact .inr (.inr (.inr ⟨x, rfl⟩))
  | _ => cases h

theorem sampler_of_draws_ne {i : Instr} {s t : State} (h : exec i s = .next t) (hne : t.draws ≠ s.draws) :
    (∃ x kk, i = .rnd x kk) ∨ (∃ x, i = .skp x) ∨ (∃ x, i = .sknp x) ∨ ∃ x, i = .ldK x := by
  obtain ⟨kind, info, rfl⟩ | hf := exec_raises_or_frames h
  · exact absurd rfl hne
  · exact sampler_of_footprint_draws (Bool.of_not_eq_false fun untouched => hne (hf.draws untouched))

theorem exec_draws_le {i : Instr} {s t : State} (h : exec i s = .next t) : t.draws ≤ s.draws + 1 := by
  by_cases same : t.draws = s.draws
  · omega
  · obtain ⟨x, kk, rfl⟩ | ⟨x, rfl⟩ | ⟨x, rfl⟩ | ⟨x, rfl⟩ := sampler_of_draws_ne h same
    · exact Nat.le_of_eq (exec_rnd_draws h)
    · exact exec_skp_draws_le h
    · exact exec_sknp_draws_le h
    · exact Nat.le_of_eq (exec_ldK_draws h)

/-- Settles O23: only a sampler's footprint holds the draw counter, and each sampler moves it by at most one. -/
theorem atMostOneSample : Obligations.AtMostOneSample := by
  refine fun i s t h => ⟨exec_draws_le h, sampler_of_draws_ne h, ?_⟩
  rintro (⟨x, kk, rfl⟩ | ⟨x, rfl⟩)
  · exact exec_rnd_draws h
  · exact exec_ldK_draws h

end Sys2Proof.Machine
end

section
/-! System and control transfer (41_flow.md): the push and the pop of the return stack, the end of a step whose execute phase
completes, and then SYS, JP, JP_REG, CALL and RET. -/

namespace Sys2Proof.Machine

/-! ### The return stack (R22, R26) -/

theorem push_of_lt {s : State} (h : s.sp.val < 16) (w : Word) :
    s.push w = some { s with stack := s.stack.set s.sp.val w, sp := ⟨s.sp.val + 1, by omega⟩ } := dif_pos h

theorem pop_of_pos {s : State} (h : 0 < s.sp.val) :
    s.pop = some (s.stack[s.sp.val - 1], { s with sp := ⟨s.sp.val - 1, by omega⟩ }) := dif_pos h

/-! ### The end of a clean step (R76) -/

/-- A step whose execute phase leaves the machine running ages both timers of what the phase left. -/
theorem step_of_exec_running {s u : State} {w : Word} (hs : s.status = .running) (hf : s.fetch s.pc.toNat = .ok w)
    (hu : exec (decodeWord w) s.advancePc = .next u) (hrun : u.status = .running) : step s = .next u.ageTimers := by
  rw [step_of_fetch_ok hs hf hu, finish_of_running hrun]

theorem Frame.ageTimers {p : Parts} {s t : State} (h : Frame p s t) (hdt : p.dt = true) (hst : p.st = true) :
    Frame p s t.ageTimers :=
  { h with dt := by simp [hdt], st := by simp [hst] }

/-- Going back to the address the step fetched from undoes its advance of `pc`. -/
theorem setPc_advancePc (s : State) : s.advancePc.setPc s.pc = s := rfl

/-! ### SYS -/

/-- The words `0nnn` that are neither CLS nor RET are SYS words (R63). -/
theorem sys_zero_wf {nnn : Addr12} (hcls : nnn ≠ 0x0E0) (hret : nnn ≠ 0x0EE) : (Instr.sys 0x0#4 nnn).wf = true := by
  rw [ne_eq, ← BitVec.toNat_inj] at hcls hret
  simpa [Instr.wf, fallbackWord] using ⟨hcls, hret⟩

/-- Settles O24: `0nnn` is the word of a well-formed SYS; the step of a SYS is the advance of `pc` and the ageing alone. -/
theorem sysDoesNothing : Obligations.SysDoesNothing := by
  refine ⟨fun nnn hcls hret => decodeWord_encode (i := .sys 0x0#4 nnn) (sys_zero_wf hcls hret), fun _ _ _ => rfl,
    fun s w op nnn hs hf hdec => ?_⟩
  have hexec : exec (decodeWord w) s.advancePc = .next s.advancePc := by rw [hdec]; rfl
  exact ⟨_, step_of_exec_running hs hf hexec hs, rfl, ageTimer_toNat s.dt, ageTimer_toNat s.st,
    (Frame.refl.setPc rfl _).ageTimers rfl rfl⟩

/-! ### JP and JP_REG -/

/-- A jump to the instruction's own address leaves the state of before the step, with its timers aged (R92, R76). -/
theorem step_jp_self {s : State} {nnn : Addr12} (hs : s.status = .running)
    (hf : s.fetch s.pc.toNat = .ok (packNNN 0x1#4 nnn)) (hself : s.pc.toNat = nnn.toNat) : step s = .next s.ageTimers := by
  have target : zext16 nnn = s.pc := BitVec.eq_of_toNat_eq ((zext16_toNat nnn).trans hself.symm)
  have hexec : exec (decodeWord (packNNN 0x1#4 nnn)) s.advancePc = .next s :=
    calc exec (decodeWord (packNNN 0x1#4 nnn)) s.advancePc
        = exec (.jp nnn) s.advancePc := congrArg (exec · _) (decodeWord_encode (i := .jp nnn) rfl)
      _ = .next (s.advancePc.setPc (zext16 nnn)) := rfl
      _ = .next s := by rw [target, setPc_advancePc]
  exact step_of_exec_running hs hf hexec hs

/-- Settles O25: the execute phase is one write of `pc`, and the self-jump undoes the step's advance. -/
theorem jumpSetsPc : Obligations.JumpSetsPc := by
  refine fun nnn s => ⟨decodeWord_encode (i := .jp nnn) rfl,
    ⟨s.setPc (zext16 nnn), rfl, zext16_toNat nnn, Frame.refl.setPc rfl _, ?_⟩, fun hs hf hself =>
    ⟨_, step_jp_self hs hf hself, rfl, ageTimer_toNat s.dt, ageTimer_toNat s.st, Frame.refl.ageTimers rfl rfl⟩⟩
  rintro rfl
  exact fetch_eq_error.2 ⟨Nat.le_refl 0xFFF, rfl⟩

/-- Settles O26: the 16-bit sum of a 12-bit base and a byte does not wrap. -/
theorem jumpAddsV0 : Obligations.JumpAddsV0 := by
  intro nnn s
  have sum := zext16_add_zextByte_toNat nnn (s.getV 0)
  exact ⟨decodeWord_encode (i := .jpReg nnn) rfl, s.setPc (zext16 nnn + zextByte (s.getV 0)), rfl, sum,
    Frame.refl.setPc rfl _, fun hout => fetch_eq_error.2 ⟨Nat.le_trans hout (Nat.le_of_eq sum.symm), rfl⟩⟩

/-! ### CALL and RET -/

theorem exec_call_of_push {s t : State} (h : s.push s.pc = some t) (nnn : Addr12) :
    exec (.call nnn) s = .next (t.setPc (zext16 nnn)) := by
  simp only [exec, execCall, h]

theorem exec_ret_of_pop {s t : State} {target : Word} (h : s.pop = some (target, t)) :
    exec .ret s = .next (t.setPc target) := by
  simp only [exec, execRet, h]

/-- With 16 calls outstanding CALL raises StackOverflow (R172). -/
theorem exec_call_of_full {s : State} (h : s.sp.val = 16) (nnn : Addr12) :
    exec (.call nnn) s = .next (s.raise (.call nnn) .stackOverflow none) := by
  simp only [exec, execCall, (push_eq_none s s.pc).2 h]

/-- With no call outstanding RET raises StackUnderflow (R173). -/
theorem exec_ret_of_empty {s : State} (h : s.sp.val = 0) :
    exec .ret s = .next (s.raise .ret .stackUnderflow none) := by
  simp only [exec, execRet, (pop_eq_none s).2 h]

/-- Settles O27: the push finds room exactly below 16. -/
theorem callPushesAndJumps : Obligations.CallPushesAndJumps := by
  refine fun nnn s => ⟨decodeWord_encode (i := .call nnn) rfl, fun room => ?_, fun full => exec_call_of_full full nnn⟩
  have hpush := push_of_lt room s.pc
  exact ⟨_, exec_call_of_push hpush nnn, Vector.getElem_set_self _, rfl, zext16_toNat nnn,
    (Frame.refl.push rfl List.mem_cons_self hpush).setPc rfl _⟩

/-- Settles O28: the pop finds an entry exactly above 0. -/
theorem returnPopsIntoPc : Obligations.ReturnPopsIntoPc := by
  refine fun s => ⟨decodeWord_encode (i := .ret) rfl, fun occupied => ?_, fun empty => exec_ret_of_empty empty⟩
  have hpop := pop_of_pos occupied
  exact ⟨_, exec_ret_of_pop hpop, rfl, rfl, (Frame.refl.pop rfl hpop).setPc rfl _⟩

/-- Settles O29, from O27 and O28: the entry that RET reads is the one CALL wrote. -/
theorem returnUndoesCall : Obligations.ReturnUndoesCall := by
  intro nnn s room
  obtain ⟨-, hcall, -⟩ := callPushesAndJumps nnn s
  obtain ⟨t, ht, pushed, tsp, -, -⟩ := hcall room
  refine ⟨t, ht, fun u usp ustack => ?_⟩
  obtain ⟨-, hret, -⟩ := returnPopsIntoPc u
  obtain ⟨r, hr, rpc, rsp, -⟩ := hret (by omega)
  have top : u.sp.val - 1 = s.sp.val := by omega
  exact ⟨r, hr, by simp only [rpc, top, ustack, pushed], Fin.ext (rsp.trans top)⟩

end Sys2Proof.Machine
end

section
/-! Skips (42_skips.md R100 to R103): what a skip leaves, the words `5xyN` and `9xyN` of no skip, and then SE and SNE,
SE_REG and SNE_REG. -/

namespace Sys2Proof.Machine

/-! ### Taking a skip -/

/-- A skip taken with the advanced `pc` at 0xFFE leaves `pc` at 0x1000, where no fetch succeeds (R73, R100). -/
theorem fetch_skipIf_of_top {s : State} {c : Bool} (hpc : s.pc = 0xFFE) (taken : c = true) :
    (s.skipIf c).fetch (s.skipIf c).pc.toNat = .error 0x1000 := by
  have target : (s.skipIf c).pc.toNat = 0x1000 := by rw [skipIf_pc, if_pos taken, hpc]; rfl
  rw [target]
  exact fetch_eq_error.2 ⟨by decide, rfl⟩

/-! Where a skip on an equality, and one on a difference, leaves `pc`. -/

theorem skipIf_beq_pc (s : State) (a b : Byte) : (s.skipIf (a == b)).pc = if a = b then s.pc + 2 else s.pc := by
  simp only [skipIf_pc, beq_iff_eq]

theorem skipIf_bne_pc (s : State) (a b : Byte) : (s.skipIf (a != b)).pc = if a = b then s.pc else s.pc + 2 := by
  simp only [skipIf_pc, bne_iff_ne, ite_not]

/-! ### The words of no register skip -/

/-- In the families 5 and 9 a low nibble other than 0 makes the word a SYS (R63, D16). -/
theorem decodeWord_of_strict_low_nibble {op n : Nibble} (hop : op = 0x5#4 ∨ op = 0x9#4) (hn : n ≠ 0) (x y : RegIdx) :
    decodeWord (packXYN op x y n) = .sys op (nnnOf (packXYN op x y n)) := by
  have low : (nnnOf (packXYN op x y n)).toNat % 16 ≠ 0 := by
    rw [nnnOf_mod_16, nOf_packXYN]
    exact fun h => hn (BitVec.eq_of_toNat_eq h)
  have fallback : fallbackWord op (nnnOf (packXYN op x y n)) = true := by
    obtain rfl | rfl := hop <;> exact bne_iff_ne.2 low
  simpa using decodeWord_of_fallbackWord (w := packXYN op x y n) (by rwa [opOf_packXYN])

/-! ### SE and SNE, SE_REG and SNE_REG -/

/-- Settles O30: each is one skip, on the equality or on the difference of the register and the immediate. -/
theorem skipsCompareImmediate : Obligations.SkipsCompareImmediate := fun x kk s =>
  ⟨decodeWord_encode (i := .se x kk) rfl, decodeWord_encode (i := .sne x kk) rfl,
    ⟨_, rfl, skipIf_beq_pc s _ _, Frame.refl.skipIf rfl _, fun hpc equal => fetch_skipIf_of_top hpc (beq_iff_eq.2 equal)⟩,
    ⟨_, rfl, skipIf_bne_pc s _ _, Frame.refl.skipIf rfl _, fun hpc differ => fetch_skipIf_of_top hpc (bne_iff_ne.2 differ)⟩⟩

/-- Settles O31: each is one skip, on the equality or on the difference of the registers; the other words of the two families
are fallback words. -/
theorem skipsCompareRegisters : Obligations.SkipsCompareRegisters := fun x y s =>
  ⟨decodeWord_encode (i := .seReg x y) rfl, decodeWord_encode (i := .sneReg x y) rfl,
    fun _ hn => ⟨_, decodeWord_of_strict_low_nibble (.inl rfl) hn x y⟩,
    fun _ hn => ⟨_, decodeWord_of_strict_low_nibble (.inr rfl) hn x y⟩,
    ⟨_, rfl, skipIf_beq_pc s _ _, Frame.refl.skipIf rfl _⟩, ⟨_, rfl, skipIf_bne_pc s _ _, Frame.refl.skipIf rfl _⟩⟩

end Sys2Proof.Machine
end

section
/-! Register loads and arithmetic (43_alu.md R110 to R121): byte arithmetic as numbers (R122), VF after the two writes of a
flag-setting instruction in either order (R14, D5), and then the instructions. -/

namespace Sys2Proof.Machine

/-! ### Byte arithmetic (R122) -/

theorem byte_sub_toNat (a b : Byte) : (a - b).toNat = (a.toNat + 256 - b.toNat) % 256 := by
  have := b.isLt
  rw [BitVec.toNat_sub]; omega

theorem byte_shiftRight_one_toNat (a : Byte) : (a >>> 1).toNat = a.toNat / 2 := by
  rw [BitVec.toNat_ushiftRight, Nat.shiftRight_eq_div_pow]

theorem byte_shiftLeft_one_toNat (a : Byte) : (a <<< 1).toNat = a.toNat * 2 % 256 := by
  rw [BitVec.toNat_shiftLeft, Nat.shiftLeft_eq]

theorem shrFlag_toNat (a : Byte) : (shrFlag a).toNat = a.toNat % 2 :=
  (BitVec.toNat_and a 1).trans (Nat.and_one_is_mod a.toNat)

theorem shlFlag_toNat (a : Byte) : (shlFlag a).toNat = a.toNat / 128 := by
  rw [shlFlag, BitVec.toNat_ushiftRight, Nat.shiftRight_eq_div_pow]

/-- The bit SHR shifts out is itself shifted out when VF is shifted again (D5). -/
theorem shrFlag_shiftRight_one (a : Byte) : shrFlag a >>> 1 = 0 := by
  apply BitVec.eq_of_toNat_eq
  rw [byte_shiftRight_one_toNat, shrFlag_toNat, Nat.mod_div_self]; rfl

/-- The bit SHL shifts out moves up to place 1 when VF is shifted again (D5). -/
theorem shlFlag_shiftLeft_one (a : Byte) : shlFlag a <<< 1 = if a.toNat ≥ 128 then 2 else 0 := by
  have := a.isLt
  apply BitVec.eq_of_toNat_eq
  rw [byte_shiftLeft_one_toNat, shlFlag_toNat]
  split <;> simp only [BitVec.ofNat_eq_ofNat, BitVec.toNat_ofNat] <;> omega

theorem mask_and_not_mask (mask b : Byte) : mask &&& b &&& ~~~mask = 0 := by
  rw [BitVec.and_comm mask b, BitVec.and_assoc, BitVec.and_not_self]; exact BitVec.and_zero

theorem boolByte_decide (p : Prop) [Decidable p] : boolByte (decide p) = if p then 1 else 0 := by
  simp only [boolByte, decide_eq_true_eq]

/-! ### The two writes of a flag-setting instruction (R14, D5) -/

section
variable (s : State) {x : RegIdx} (b flag : Byte)

@[simp] theorem getV_setVf_vf : (s.setVf b).getV vf = b := getV_setV_same s vf b

theorem getV_setVf_ne (h : x ≠ vf) : (s.setVf b).getV x = s.getV x := getV_setV_ne s b h

/-- The result first, then the flag: the result stays, unless it went to VF. -/
theorem getV_setV_setVf (h : x ≠ vf) : ((s.setV x b).setVf flag).getV x = b := by
  rw [getV_setVf_ne _ _ h, getV_setV_same]

/-- What SHR and SHL do: the flag first, then `V[x]`, read again, shifted by `f`. -/
def State.flagThenShift (x : RegIdx) (flag : Byte) (f : Byte → Byte) : State :=
  (s.setVf flag).setV x (f ((s.setVf flag).getV x))

theorem exec_shr (x y : RegIdx) : exec (.shr x y) s = .next (s.flagThenShift x (shrFlag (s.getV x)) (· >>> 1)) := rfl

theorem exec_shl (x y : RegIdx) : exec (.shl x y) s = .next (s.flagThenShift x (shlFlag (s.getV x)) (· <<< 1)) := rfl

variable (f : Byte → Byte)

theorem getV_flagThenShift (h : x ≠ vf) : (s.flagThenShift x flag f).getV x = f (s.getV x) := by
  rw [State.flagThenShift, getV_setV_same, getV_setVf_ne _ _ h]

theorem getV_vf_flagThenShift (h : x ≠ vf) : (s.flagThenShift x flag f).getV vf = flag := by
  rw [State.flagThenShift, getV_setV_ne _ _ h.symm, getV_setVf_vf]

/-- When the shifted register is VF, it is the flag that is shifted. -/
theorem getV_flagThenShift_vf : (s.flagThenShift vf flag f).getV vf = f flag := by
  rw [State.flagThenShift, getV_setV_same, getV_setVf_vf]

theorem Frame.flagThenShift (x : RegIdx) : Frame { regs := [x, vf] } s (s.flagThenShift x flag f) :=
  (Frame.refl.setVf (vf_mem_pair x) _).setV List.mem_cons_self _

/-- What SUBN's rule leaves in VF (R119). -/
theorem getV_setSubnFlag_vf (vx vy : Byte) : (s.setSubnFlag vx vy).getV vf =
    if subnCond s.cfg.subnFlagCond vx vy then 1 else if s.cfg.subnVfElse = .clear then 0 else s.getV vf := by
  rw [setSubnFlag_eq]
  split
  next => exact getV_setVf_vf s 1
  next =>
    split
    next => exact getV_setVf_vf s 0
    next => rfl

end

/-! ### LD and LD_REG, ADD, and the logic operations -/

/-- Settles O32: each is one write of `V[x]`. -/
theorem loadsSetTheRegister : Obligations.LoadsSetTheRegister := fun x y kk s =>
  ⟨decodeWord_encode (i := .ld x kk) rfl, decodeWord_encode (i := .ldReg x y) rfl,
    ⟨_, rfl, getV_setV_same s x _, Frame.refl.setV List.mem_cons_self _⟩,
    ⟨_, rfl, getV_setV_same s x _, Frame.refl.setV List.mem_cons_self _⟩⟩

/-- Settles O33: the sum is written to `V[x]` alone, so VF is another register or the destination. -/
theorem addImmediateWrapsWithoutFlag : Obligations.AddImmediateWrapsWithoutFlag := by
  intro x kk s
  refine ⟨decodeWord_encode (i := .add x kk) rfl, s.setV x (s.getV x + kk), rfl, ?_, fun h => getV_setV_ne s _ h.symm,
    Frame.refl.setV List.mem_cons_self _⟩
  rw [getV_setV_same, BitVec.toNat_add]

/-- Settles O34: each writes `V[x]` alone, and a bit of the result is the operation on the operands' bits. -/
theorem logicIsBitwise : Obligations.LogicIsBitwise := by
  intro x y s
  refine ⟨decodeWord_encode (i := .or x y) rfl, decodeWord_encode (i := .and x y) rfl, decodeWord_encode (i := .xor x y) rfl,
    ⟨_, rfl, fun k _ => ?_, Frame.refl.setV List.mem_cons_self _⟩,
    ⟨_, rfl, fun k _ => ?_, Frame.refl.setV List.mem_cons_self _⟩,
    ⟨_, rfl, fun k _ => ?_, Frame.refl.setV List.mem_cons_self _⟩⟩
  · rw [getV_setV_same, BitVec.getLsbD_or]
  · rw [getV_setV_same, BitVec.getLsbD_and]
  · rw [getV_setV_same, BitVec.getLsbD_xor]

/-! ### ADD_REG and SUB_REG, SUBN -/

/-- Settles O35: the carry is written last. -/
theorem addRegistersSetsCarry : Obligations.AddRegistersSetsCarry := by
  intro x y s
  refine ⟨decodeWord_encode (i := .addReg x y) rfl, _, rfl, fun h => ?_, ?_,
    (Frame.refl.setV List.mem_cons_self _).setVf (vf_mem_pair x) _⟩
  · rw [getV_setV_setVf s _ _ h, BitVec.toNat_add]
  · rw [getV_setVf_vf, carryFlag, boolByte_decide]

/-- Settles O36: the no-borrow flag is written last. -/
theorem subtractSetsNoBorrow : Obligations.SubtractSetsNoBorrow := by
  intro x y s
  refine ⟨decodeWord_encode (i := .subReg x y) rfl, _, rfl, fun h => ?_, ?_,
    (Frame.refl.setV List.mem_cons_self _).setVf (vf_mem_pair x) _⟩
  · rw [getV_setV_setVf s _ _ h, byte_sub_toNat]
  · rw [getV_setVf_vf, noBorrowFlag, boolByte_decide]

/-- Settles O39: the flag rule runs on the state that holds the difference; where it keeps VF, that is the old VF, or the
difference when `x` is VF. -/
theorem subtractReverseFlagsStrictly : Obligations.SubtractReverseFlagsStrictly := by
  intro x y s
  refine ⟨decodeWord_encode (i := .subn x y) rfl, _, rfl, fun h => ?_, ?_,
    (Frame.refl.setV List.mem_cons_self _).setSubnFlag (vf_mem_pair x) _ _⟩
  · rw [getV_setSubnFlag_ne _ _ _ h, getV_setV_same, byte_sub_toNat]
  · rw [getV_setSubnFlag_vf, State.setV_cfg, getV_setV]
    simp only [eq_comm (a := vf)]
    cases s.cfg.subnVfElse <;> rfl

/-! ### SHR and SHL -/

/-- Settles O37: the bit shifted out is written before the shift, which shifts it out of VF again when `x` is VF. -/
theorem shiftRightByOne : Obligations.ShiftRightByOne := by
  intro x y s
  refine ⟨decodeWord_encode (i := .shr x y) rfl, _, exec_shr s x y, fun h => ⟨?_, ?_⟩, ?_, Frame.flagThenShift s _ _ x⟩
  · rw [getV_flagThenShift s _ _ h, byte_shiftRight_one_toNat]
  · rw [getV_vf_flagThenShift s _ _ h, shrFlag_toNat]
  · rintro rfl
    rw [getV_flagThenShift_vf, shrFlag_shiftRight_one]

/-- Settles O38: the bit shifted out is written before the shift, which moves it to place 1 when `x` is VF. -/
theorem shiftLeftByOne : Obligations.ShiftLeftByOne := by
  intro x y s
  refine ⟨decodeWord_encode (i := .shl x y) rfl, _, exec_shl s x y, fun h => ⟨?_, ?_⟩, ?_, Frame.flagThenShift s _ _ x⟩
  · rw [getV_flagThenShift s _ _ h, byte_shiftLeft_one_toNat]
  · rw [getV_vf_flagThenShift s _ _ h, shlFlag_toNat]
  · rintro rfl
    rw [getV_flagThenShift_vf, shlFlag_shiftLeft_one]

/-! ### RND -/

/-- Settles O40: `V[x]` is the mask and the sample, bit by bit, and the one draw is made before the write. -/
theorem randomIsMasked : Obligations.RandomIsMasked := by
  intro x kk s
  refine ⟨decodeWord_encode (i := .rnd x kk) rfl, s.drawn.setV x (kk &&& Config.randomByte s.draws), rfl, fun k _ => ?_, ?_,
    rfl, (Frame.refl.drawn rfl).setV List.mem_cons_self _⟩
  · rw [getV_setV_same, BitVec.getLsbD_and]
  · rw [getV_setV_same, mask_and_not_mask]

end Sys2Proof.Machine
end

section
/-! The index register and memory moves (44_index_memory.md R130 to R135): words from a byte and the glyph a byte names, the check
before a move of several bytes (R44), and then the instructions. -/

namespace Sys2Proof.Machine

/-! ### LD_I, ADD_I and LD_F -/

/-- Five times a byte does not wrap (R132). -/
theorem zextByte_mul_five_toNat (b : Byte) : (zextByte b * 5).toNat = b.toNat * 5 := by
  have := b.isLt
  have five : (5 : Word).toNat = 5 := rfl
  rw [BitVec.toNat_mul, zextByte_toNat, five]
  omega

theorem peek_of_mem_nil {s : State} (h : s.mem = []) (a : Nat) : s.peek a = unlistedByte s.cfg a := by
  rw [State.peek, h]; rfl

/-- With the font at address 0 and nothing stored, row `r` of digit `d`'s glyph lies at `5 * d + r` (R46, D1). -/
theorem peek_font_of_base_zero {s : State} (hbase : s.cfg.fontBase = 0) (hmem : s.mem = []) (d : Fin 16) (r : Fin 5) :
    s.peek (d.val * 5 + r.val) = s.cfg.font[d][r] := by
  rw [peek_of_mem_nil hmem, ← unlistedByte_font, hbase, Nat.mul_comm, Fin.val_zero, Nat.zero_add]

/-- Settles O41: the execute phase is one write of `I`. -/
theorem loadIndexImmediate : Obligations.LoadIndexImmediate := fun nnn _ =>
  ⟨decodeWord_encode (i := .ldI nnn) rfl, _, rfl, zext16_toNat nnn, Frame.refl.setI rfl _⟩

/-- Settles O42: the execute phase is one write of `I`, a 16-bit sum. -/
theorem addIndexWrapsWithoutFlag : Obligations.AddIndexWrapsWithoutFlag := by
  refine fun x s => ⟨decodeWord_encode (i := .addI x) rfl, s.setI (s.i + zextByte (s.getV x)), rfl, ?_, Frame.refl.setI rfl _⟩
  rw [State.setI_i, BitVec.toNat_add, zextByte_toNat]

/-- Settles O43: the execute phase is one write of `I`, and the font has five bytes to a digit. -/
theorem fontAddressIsFiveTimes : Obligations.FontAddressIsFiveTimes := by
  intro x s
  have index := zextByte_mul_five_toNat (s.getV x)
  refine ⟨decodeWord_encode (i := .ldF x) rfl, s.setI (zextByte (s.getV x) * 5), rfl, index, Frame.refl.setI rfl _,
    fun hbase hmem digit r => ?_⟩
  rw [State.setI_peek, State.setI_i, index]
  exact peek_font_of_base_zero hbase hmem ⟨_, digit⟩ r

/-! ### The check before a move (R44) -/

theorem rangeFault_of_last_le {base n : Nat} (h : base + n ≤ 0xFFF) : rangeFault base (n + 1) = none :=
  (rangeFault_eq_none base (n + 1)).2 fun _ _ => by omega

theorem rangeFault_of_last_gt {base n : Nat} (h : base + n > 0xFFF) : rangeFault base (n + 1) = some (max base 0x1000) :=
  if_pos ⟨Nat.succ_pos n, h⟩

theorem effAddr_zero (s : State) : s.effAddr 0 = s.i.toNat := rfl

section
variable {s : State} {x : RegIdx}

theorem exec_ldB_of_le (h : s.i.toNat + 2 ≤ 0xFFF) :
    exec (.ldB x) s = .next (s.pokeBytes s.i.toNat (decimalDigits (s.getV x))) := by
  simp only [exec, execLdB, effAddr_zero, rangeFault_of_last_le h]

theorem exec_ldB_of_gt (h : s.i.toNat + 2 > 0xFFF) :
    exec (.ldB x) s = .next (s.raise (.ldB x) .outOfBounds (some (max s.i.toNat 0x1000))) := by
  simp only [exec, execLdB, effAddr_zero, rangeFault_of_last_gt h]

theorem exec_ldIReg_of_le (h : s.i.toNat + x.toNat ≤ 0xFFF) :
    exec (.ldIReg x) s = .next (s.pokeBytes s.i.toNat (s.regBytes (x.toNat + 1))) := by
  simp only [exec, execLdIReg, regCount, effAddr_zero, rangeFault_of_last_le h]

theorem exec_ldIReg_of_gt (h : s.i.toNat + x.toNat > 0xFFF) :
    exec (.ldIReg x) s = .next (s.raise (.ldIReg x) .outOfBounds (some (max s.i.toNat 0x1000))) := by
  simp only [exec, execLdIReg, regCount, effAddr_zero, rangeFault_of_last_gt h]

theorem exec_ldRegI_of_le (h : s.i.toNat + x.toNat ≤ 0xFFF) :
    exec (.ldRegI x) s = .next (s.setRegs 0 (s.peekBytes s.i.toNat (x.toNat + 1))) := by
  simp only [exec, execLdRegI, regCount, effAddr_zero, rangeFault_of_last_le h]

theorem exec_ldRegI_of_gt (h : s.i.toNat + x.toNat > 0xFFF) :
    exec (.ldRegI x) s = .next (s.raise (.ldRegI x) .outOfBounds (some (max s.i.toNat 0x1000))) := by
  simp only [exec, execLdRegI, regCount, effAddr_zero, rangeFault_of_last_gt h]

end

/-! ### What a move leaves unchanged -/

/-- Storing `n` bytes changes memory at their `n` addresses alone. -/
theorem Frame.pokeBytes_range (s : State) (base : Nat) {bs : List Byte} {n : Nat} (h : bs.length = n) :
    Frame { stored := List.range' base n } s (s.pokeBytes base bs) :=
  Frame.refl.pokeBytes fun _ hlo hhi => List.mem_range'_1.2 ⟨hlo, h ▸ hhi⟩

/-- Loading `n` bytes writes `V[0]` to `V[n - 1]` alone. -/
theorem Frame.setRegs_range (s : State) {bs : List Byte} {n : Nat} (h : bs.length = n) (hn : n ≤ 16) :
    Frame { regs := regRange n } s (s.setRegs 0 bs) :=
  Frame.refl.setRegs (by omega) fun r _ hr => (mem_regRange hn r).2 (by omega)

/-! ### LD_B -/

/-- Storing a byte's digits leaves digit `k` at `base + k` (R133). -/
theorem peek_pokeBytes_decimalDigits (s : State) (base : Nat) (b : Byte) {k : Nat} (hk : k < 3) :
    ((s.pokeBytes base (decimalDigits b)).peek (base + k)).toNat = [b.toNat / 100, b.toNat / 10 % 10, b.toNat % 10][k] := by
  simp only [← decimalDigits_map_toNat, List.getElem_map]
  exact congrArg BitVec.toNat (peek_pokeBytes_add s base hk)

/-- Settles O44: the check looks at the last of the three addresses. -/
theorem decimalDigitsAreStored : Obligations.DecimalDigitsAreStored := by
  refine fun x s => ⟨decodeWord_encode (i := .ldB x) rfl, fun inside => ?_, fun outside => exec_ldB_of_gt outside⟩
  have digit {k : Nat} (hk : k < 3) := peek_pokeBytes_decimalDigits s s.i.toNat (s.getV x) hk
  exact ⟨_, exec_ldB_of_le inside, digit (k := 0) (by decide), digit (by decide), digit (by decide),
    Frame.pokeBytes_range s _ (bs := decimalDigits (s.getV x)) (n := 3) rfl⟩

/-! ### LD_I_REG and LD_REG_I -/

/-- Storing `V[0]` to `V[n - 1]` leaves `V[k]` at `base + k` (R134). -/
theorem peek_pokeBytes_regBytes (s : State) (base : Nat) {n : Nat} {k : RegIdx} (hk : k.toNat < n) :
    (s.pokeBytes base (s.regBytes n)).peek (base + k.toNat) = s.getV k := by
  rw [peek_pokeBytes_add s base (by rwa [regBytes_length]), regBytes_getElem, BitVec.ofNat_toNat, BitVec.setWidth_eq]

/-- Loading `n` registers leaves the byte at `base + k` in `V[k]` (R135). -/
theorem getV_setRegs_peekBytes (s : State) (base : Nat) {n : Nat} (hn : n ≤ 16) {k : RegIdx} (hk : k.toNat < n) :
    (s.setRegs 0 (s.peekBytes base n)).getV k = s.peek (base + k.toNat) := by
  rw [getV_setRegs _ _ _ (by simpa using hn), dif_pos (by simpa using hk), peekBytes_getElem, Nat.sub_zero]

/-- Settles O45: the check looks at the last address, `I + x`. -/
theorem registersAreStored : Obligations.RegistersAreStored := by
  refine fun x s => ⟨decodeWord_encode (i := .ldIReg x) rfl, fun inside => ?_, fun outside => exec_ldIReg_of_gt outside⟩
  exact ⟨_, exec_ldIReg_of_le inside, fun k hk => peek_pokeBytes_regBytes s _ (Nat.lt_succ_of_le hk),
    Frame.pokeBytes_range s _ (regBytes_length s _)⟩

/-- Settles O46: the check looks at the last address, `I + x`; the registers above `V[x]` are outside the frame. -/
theorem registersAreLoaded : Obligations.RegistersAreLoaded := by
  refine fun x s => ⟨decodeWord_encode (i := .ldRegI x) rfl, fun inside => ?_, fun outside => exec_ldRegI_of_gt outside⟩
  have count : x.toNat + 1 ≤ 16 := x.isLt
  have frame := Frame.setRegs_range s (peekBytes_length (x.toNat + 1) s s.i.toNat) count
  exact ⟨_, exec_ldRegI_of_le inside, fun k hk => getV_setRegs_peekBytes s _ count (Nat.lt_succ_of_le hk), frame,
    fun k hk => frame.regs k fun hmem => absurd ((mem_regRange count k).1 hmem) (by omega)⟩

end Sys2Proof.Machine
end

section
/-! Timers and keys (45_timers_keys.md R140 to R145): the clean step of an instruction whose word is fetched, what each key
instruction does with its sample, and then the timer instructions, SKP and SKNP, and LD_K. -/

namespace Sys2Proof.Machine

/-- The clean step of a well-formed instruction whose word lies at `pc` (R72, R76). -/
theorem step_of_fetch_encode {i : Instr} {s u : State} (hi : i.wf = true) (hs : s.status = .running)
    (hf : s.fetch s.pc.toNat = .ok (encode i)) (hu : exec i s.advancePc = .next u) (hrun : u.status = .running) :
    step s = .next u.ageTimers :=
  step_of_exec_running hs hf (by rwa [decodeWord_encode hi]) hrun

/-! ### LD_DT, LD_DT_SET and LD_ST_SET -/

section
variable {s : State} {x : RegIdx} (hs : s.status = .running)
include hs

theorem step_ldDt (hf : s.fetch s.pc.toNat = .ok (packXKK 0xF#4 x 0x07#8)) :
    step s = .next (s.advancePc.setV x s.dt).ageTimers := step_of_fetch_encode (i := .ldDt x) rfl hs hf rfl hs

theorem step_ldDtSet (hf : s.fetch s.pc.toNat = .ok (packXKK 0xF#4 x 0x15#8)) :
    step s = .next (s.advancePc.setDt (s.getV x)).ageTimers := step_of_fetch_encode (i := .ldDtSet x) rfl hs hf rfl hs

end

/-- Settles O47: LD_DT copies DT before the step ages it, so after LD_DT_SET it reads the set value aged once. -/
theorem delayTimerIsRead : Obligations.DelayTimerIsRead := by
  refine fun x s => ⟨decodeWord_encode (i := .ldDt x) rfl,
    ⟨_, rfl, getV_setV_same s x _, Frame.refl.setV List.mem_cons_self _⟩,
    fun hs hf => ⟨_, step_ldDt hs hf, getV_setV_same s.advancePc x _, ageTimer_toNat s.dt⟩, fun y u t hs hf hu huf ht => ?_⟩
  obtain ⟨urun, -⟩ := step_cases ht
  have read : t.getV x = u.dt := by
    cases (step_ldDt urun huf).symm.trans ht
    exact getV_setV_same u.advancePc x _
  have aged : u.dt = ageTimer (s.getV y) := by
    cases (step_ldDtSet hs hf).symm.trans hu
    rfl
  rw [read, aged, ageTimer_toNat]

/-- Settles O48: each is one write of its timer. -/
theorem timersAreSet : Obligations.TimersAreSet := fun x _ =>
  ⟨decodeWord_encode (i := .ldDtSet x) rfl, decodeWord_encode (i := .ldStSet x) rfl,
    ⟨_, rfl, rfl, Frame.refl.setDt rfl _⟩, ⟨_, rfl, rfl, Frame.refl.setSt rfl _⟩⟩

/-! ### SKP and SKNP -/

/-- The key a register value names is the one with the same number (R143). -/
theorem keyOf_of_toNat_eq {b : Byte} {k : Key} (h : k.toNat = b.toNat) : keyOf b = some k := by
  have inRange := k.isLt
  cases hk : keyOf b with
  | none =>
    have := (keyOf_eq_none b).1 hk
    omega
  | some k' =>
    obtain ⟨-, same⟩ := keyOf_eq_some hk
    rw [BitVec.eq_of_toNat_eq (same.trans h.symm)]

theorem skipIf_not_pc (s : State) (c : Bool) : (s.skipIf !c).pc = if c then s.pc else s.pc + 2 := by
  cases c <;> rfl

section
variable {s : State} {x : RegIdx}

theorem exec_skp_of_key {k : Key} (h : k.toNat = (s.getV x).toNat) :
    exec (.skp x) s = .next (s.drawn.skipIf (Config.keyDown s.draws k)) := by
  simp only [exec, execSkp, keyOf_of_toNat_eq h, State.sampleKeyDown]

theorem exec_sknp_of_key {k : Key} (h : k.toNat = (s.getV x).toNat) :
    exec (.sknp x) s = .next (s.drawn.skipIf !Config.keyDown s.draws k) := by
  simp only [exec, execSknp, keyOf_of_toNat_eq h, State.sampleKeyDown]

/-- A value above 15 names no key, and nothing is sampled (R171, D14). -/
theorem exec_skp_of_no_key (h : (s.getV x).toNat > 15) :
    exec (.skp x) s = .next (s.raise (.skp x) .outOfBounds (some (s.getV x).toNat)) := by
  simp only [exec, execSkp, (keyOf_eq_none _).2 h]

theorem exec_sknp_of_no_key (h : (s.getV x).toNat > 15) :
    exec (.sknp x) s = .next (s.raise (.sknp x) .outOfBounds (some (s.getV x).toNat)) := by
  simp only [exec, execSknp, (keyOf_eq_none _).2 h]

end

/-- Settles O49: a key is sampled once and the skip taken on the answer, or on its negation; no key is a fault. -/
theorem keySkipsSampleTheKey : Obligations.KeySkipsSampleTheKey := by
  refine fun x s => ⟨decodeWord_encode (i := .skp x) rfl, decodeWord_encode (i := .sknp x) rfl, fun k hk => ?_,
    fun hout => ⟨exec_skp_of_no_key hout, exec_sknp_of_no_key hout⟩⟩
  have frame (c : Bool) : Frame { pc := true, draws := true } s (s.drawn.skipIf c) := (Frame.refl.drawn rfl).skipIf rfl c
  exact ⟨⟨_, exec_skp_of_key hk, skipIf_pc s.drawn _, skipIf_draws s.drawn _, frame _⟩,
    ⟨_, exec_sknp_of_key hk, skipIf_not_pc s.drawn _, skipIf_draws s.drawn _, frame _⟩⟩

/-! ### LD_K -/

theorem byteOfKey_toNat (k : Key) : (byteOfKey k).toNat = k.toNat :=
  BitVec.toNat_setWidth_of_le (by decide)

section
variable {s : State} (x : RegIdx)

theorem exec_ldK_of_some {k : Key} (h : Config.nextKey s.draws = some k) :
    exec (.ldK x) s = .next (s.drawn.setV x (byteOfKey k)) := by
  simp only [exec, execLdK, State.sampleNextKey, h]

theorem exec_ldK_of_none (h : Config.nextKey s.draws = none) : exec (.ldK x) s = .next s.drawn.rewindPc := by
  simp only [exec, execLdK, State.sampleNextKey, h]

/-- With no key the execute phase undoes the step's advance of `pc`, and only the sample is left (R145). -/
theorem exec_ldK_advancePc_of_none (h : Config.nextKey s.draws = none) :
    exec (.ldK x) s.advancePc = .next s.drawn :=
  (exec_ldK_of_none (s := s.advancePc) x h).trans (congrArg _ (rewindPc_advancePc s.drawn))

end

/-- Settles O50, by the two answers of the port: a key is one register write, no key is the rewind of `pc`. -/
theorem waitForKeyRewinds : Obligations.WaitForKeyRewinds := by
  intro x s
  refine ⟨decodeWord_encode (i := .ldK x) rfl, ?_⟩
  cases hkey : Config.nextKey s.draws with
  | none =>
    exact ⟨⟨_, exec_ldK_of_none x hkey, rfl, rfl, (Frame.refl.drawn rfl).rewindPc rfl⟩, fun hs hf =>
      ⟨_, step_of_fetch_encode (i := .ldK x) rfl hs hf (exec_ldK_advancePc_of_none x hkey) hs, ageTimer_toNat s.dt,
        ageTimer_toNat s.st, rfl, (Frame.refl.drawn rfl).ageTimers rfl rfl⟩⟩
  | some k =>
    have stored (t : State) : ((t.setV x (byteOfKey k)).getV x).toNat = k.toNat := by
      rw [getV_setV_same, byteOfKey_toNat]
    have frame : Frame { regs := [x], pc := true, dt := true, st := true, draws := true } s
        (s.advancePc.drawn.setV x (byteOfKey k)).ageTimers :=
      (((Frame.refl.setPc rfl _).drawn rfl).setV List.mem_cons_self _).ageTimers rfl rfl
    exact ⟨⟨_, exec_ldK_of_some x hkey, rfl, stored s.drawn, (Frame.refl.drawn rfl).setV List.mem_cons_self _⟩, fun hs hf =>
      ⟨_, step_of_fetch_encode (i := .ldK x) rfl hs hf (exec_ldK_of_some (s := s.advancePc) x hkey) hs, ageTimer_toNat s.dt,
        ageTimer_toNat s.st, rfl, rfl, stored s.advancePc.drawn, frame⟩⟩

end Sys2Proof.Machine
end

section
/-! The display (46_display.md R150 to R159): the readout and the packing, what a draw does to a pixel and when it collides, the
two bytes a sprite row touches in the byte-level form, and then CLS and DRW. -/

namespace Sys2Proof.Machine

/-! ### The packing and the readout (R151, R155) -/

/-- Settles O53: bit `k` of a byte is its value divided by `2 ^ k`, modulo 2; the packing gives no two pixels the same bit. -/
theorem pixelsArePackedMsbFirst : Obligations.PixelsArePackedMsbFirst := by
  refine fun fb col row => ⟨?_, fun q => ?_⟩
  · exact (congrArg (· = true) Nat.testBit_eq_decide_div_mod_eq).to_iff.trans decide_eq_true_iff
  · rw [fbPixel_fbToggle]
    split
    next h => rw [h]
    next => rfl

/-- Every bit of the framebuffer is some pixel (R151). -/
theorem exists_pixel_of_byte_bit (i : Fin 256) {k : Nat} (hk : k < 8) : ∃ p, pixelByte p = i ∧ pixelBit p = k := by
  refine ⟨(⟨i.val % 8 * 8 + (7 - k), by omega⟩, ⟨i.val / 8, by omega⟩), Fin.ext ?_, ?_⟩
  · simp only [pixelByte]
    omega
  · simp only [pixelBit]
    omega

theorem fbReadout_getElem (fb : Framebuffer) {k : Nat} (hk : k < 2048) :
    (fbReadout fb)[k] = if fbPixel fb (Fin.ofNat 64 (k % 64), Fin.ofNat 32 (k / 64)) then 255 else 0 :=
  Vector.getElem_ofFn hk

/-- Settles O57: entry `row * 64 + col` names row `row` and column `col` by division. -/
theorem readoutIsRowMajor : Obligations.ReadoutIsRowMajor := by
  intro s col row
  have hcol : Fin.ofNat 64 ((row.val * 64 + col.val) % 64) = col := Fin.ext (by simp only [Fin.ofNat]; omega)
  have hrow : Fin.ofNat 32 ((row.val * 64 + col.val) / 64) = row := Fin.ext (by simp only [Fin.ofNat]; omega)
  rw [State.readout, fbReadout_getElem, hcol, hrow]

/-! ### CLS -/

@[simp] theorem fbClear_getElem {k : Nat} (hk : k < 256) : fbClear[k] = 0 := Vector.getElem_replicate hk

@[simp] theorem fbPixel_fbClear (p : Pixel) : fbPixel fbClear p = false := by
  rw [fbPixel, Fin.getElem_fin, fbClear_getElem]
  exact BitVec.getLsbD_zero

theorem eq_fbClear {fb : Framebuffer} (h : ∀ k : Fin 256, fb[k] = 0) : fb = fbClear :=
  Vector.ext fun k hk => (h ⟨k, hk⟩).trans (fbClear_getElem hk).symm

/-- Settles O51: the execute phase is one write of the framebuffer, of a bitmap with no pixel set. -/
theorem clearScreenZeroesEveryPixel : Obligations.ClearScreenZeroesEveryPixel := by
  refine fun s => ⟨decodeWord_encode (i := .cls) rfl, s.setFb fbClear, rfl, fun k => fbClear_getElem k.isLt, fbPixel_fbClear,
    fun k => ?_, Frame.refl.setFb rfl _, fun clear => ?_⟩
  · exact (fbReadout_getElem fbClear k.isLt).trans (by rw [fbPixel_fbClear]; rfl)
  · rw [← eq_fbClear clear]
    rfl

/-! ### What a draw does (R153, R154) -/

section
variable (fb : Framebuffer) {x y : Byte} {bs : List Byte}

/-- A draw flips the pixels its sprite touches: none is toggled twice. -/
theorem fbPixel_fbDraw (h : bs.length ≤ 15) (p : Pixel) :
    fbPixel (fbDraw fb x y bs).1 p = (fbPixel fb p ^^ decide (p ∈ spritePixels x y bs)) :=
  fbPixel_foldl_fbToggle _ fb (spritePixels_nodup (by omega)) p

theorem fbPixel_fbDraw_of_covers (h : bs.length ≤ 15) {p : Pixel} (hp : SpriteCovers x y bs p) :
    fbPixel (fbDraw fb x y bs).1 p = !fbPixel fb p := by
  rw [fbPixel_fbDraw fb h, decide_eq_true (spriteCovers_iff.1 hp), Bool.xor_true]

theorem fbPixel_fbDraw_of_not_covers (h : bs.length ≤ 15) {p : Pixel} (hp : ¬ SpriteCovers x y bs p) :
    fbPixel (fbDraw fb x y bs).1 p = fbPixel fb p := by
  rw [fbPixel_fbDraw fb h, decide_eq_false (mt spriteCovers_iff.2 hp), Bool.xor_false]

theorem fbDraw_collides_iff : (fbDraw fb x y bs).2 = true ↔ ∃ p, SpriteCovers x y bs p ∧ fbPixel fb p = true := by
  simp only [fbDraw, List.any_eq_true, spriteCovers_iff]

end

/-- Settles O54: a pixel goes from set to clear exactly when it was set and the sprite covers it. -/
theorem drawIsPixelwiseXor : Obligations.DrawIsPixelwiseXor := by
  refine fun fb x y bs h => ⟨fun p => ⟨fbPixel_fbDraw_of_covers fb h, fbPixel_fbDraw_of_not_covers fb h⟩, ?_⟩
  rw [fbDraw_collides_iff]
  refine exists_congr fun p => ⟨fun ⟨covered, set⟩ => ⟨set, ?_⟩, fun ⟨set, clear⟩ => ⟨?_, set⟩⟩
  · rw [fbPixel_fbDraw_of_covers fb h covered, set, Bool.not_true]
  · refine Classical.byContradiction fun uncovered => ?_
    rw [fbPixel_fbDraw_of_not_covers fb h uncovered, set] at clear
    cases clear

/-- A sprite covers a pixel exactly when it has a set bit. -/
theorem exists_spriteCovers_iff {x y : Byte} {bs : List Byte} : (∃ p, SpriteCovers x y bs p) ↔ ∃ b ∈ bs, b ≠ 0 := by
  constructor
  · rintro ⟨p, r, hr, j, -, bit, -⟩
    refine ⟨bs[r], List.getElem_mem hr, fun zero => ?_⟩
    rw [zero] at bit
    exact absurd bit (by simp)
  · rintro ⟨b, hb, nonzero⟩
    obtain ⟨r, hr, rfl⟩ := List.getElem_of_mem hb
    obtain ⟨k, hk, bit⟩ : ∃ k < 8, bs[r].getLsbD k = true := Classical.byContradiction fun noBit =>
      nonzero (BitVec.eq_of_getLsbD_eq fun k hk => by simpa using fun bit => noBit ⟨k, hk, bit⟩)
    have place : 7 - (7 - k) = k := by omega
    exact ⟨spritePixel x y r (7 - k), spriteCovers_iff.2 (mem_spritePixels.2 ⟨r, hr, 7 - k, by omega, by rwa [place], rfl⟩)⟩

/-- Settles O56: the second draw flips the same pixels back; after a first draw on a clear region they are all set. -/
theorem drawingTwiceRestores : Obligations.DrawingTwiceRestores := by
  refine fun fb x y bs h => ⟨fb_ext fun p => ?_, fun clear => ?_⟩
  · rw [fbPixel_fbDraw _ h, fbPixel_fbDraw _ h, Bool.xor_assoc, Bool.xor_self, Bool.xor_false]
  · rw [fbDraw_collides_iff, ← exists_spriteCovers_iff (x := x) (y := y)]
    refine exists_congr fun p => and_iff_left_of_imp fun covered => ?_
    have wasClear : fbPixel fb p = false := by
      refine Classical.byContradiction fun set => ?_
      rw [(fbDraw_collides_iff fb).2 ⟨p, covered, Bool.of_not_eq_false set⟩] at clear
      cases clear
    rw [fbPixel_fbDraw_of_covers fb h covered, wasClear, Bool.not_false]

/-! ### The byte-level blitter (R158) -/

/-- The byte that sprite row `r` begins in. -/
def rowByte (x y : Byte) (r : Nat) : Fin 256 := ⟨(y.toNat + r) % 32 * 8 + x.toNat % 64 / 8, by omega⟩

/-- The byte after it, within the row. -/
def rowNextByte (x y : Byte) (r : Nat) : Fin 256 := ⟨(y.toNat + r) % 32 * 8 + (x.toNat % 64 / 8 + 1) % 8, by omega⟩

/-- The bits of sprite byte `b` that fall into the byte its row begins in. -/
def leftPart (x b : Byte) : Byte := b >>> (x.toNat % 8)

/-- The bits of sprite byte `b` that fall into the byte after it. -/
def rightPart (x b : Byte) : Byte := b <<< (8 - x.toNat % 8)

/-- One framebuffer byte XORed with `m`. -/
def fbXorByte (fb : Framebuffer) (i : Fin 256) (m : Byte) : Framebuffer := fb.set i.val (fb[i] ^^^ m)

/-- Whether pixel `p` lies on a set bit of `m` laid over byte `i`. -/
def byteCovers (i : Fin 256) (m : Byte) (p : Pixel) : Bool := decide (pixelByte p = i) && m.getLsbD (pixelBit p)

theorem byteCovers_iff {i : Fin 256} {m : Byte} {p : Pixel} :
    byteCovers i m p = true ↔ pixelByte p = i ∧ m.getLsbD (pixelBit p) = true := by
  rw [byteCovers, Bool.and_eq_true, decide_eq_true_iff]

theorem rightPart_of_aligned {x : Byte} (b : Byte) (h : x.toNat % 8 = 0) : rightPart x b = 0 := by
  rw [rightPart, h]
  exact BitVec.shiftLeft_eq_zero (Nat.le_refl 8)

theorem fbXorByte_zero (fb : Framebuffer) (i : Fin 256) : fbXorByte fb i 0 = fb := by
  have zero : fb[i] ^^^ 0 = fb[i] := BitVec.xor_zero
  rw [fbXorByte, zero]
  exact Vector.set_getElem_self i.isLt

/-- At offset 0 the right part is empty, so that the second byte needs no case of its own. -/
theorem rowDrawBytes_eq (fb : Framebuffer) (x y : Byte) (r : Nat) (b : Byte) :
    rowDrawBytes fb x (Fin.ofNat 32 (y.toNat + r)) b =
      (fbXorByte (fbXorByte fb (rowByte x y r) (leftPart x b)) (rowNextByte x y r) (rightPart x b),
        fb[rowByte x y r] &&& leftPart x b != 0 || fb[rowNextByte x y r] &&& rightPart x b != 0) := by
  have offset : x.toNat % 64 % 8 = x.toNat % 8 := Nat.mod_mod_of_dvd _ (by decide)
  by_cases aligned : x.toNat % 8 = 0
  · rw [rightPart_of_aligned b aligned, fbXorByte_zero]
    simp [rowDrawBytes, aligned, fbXorByte, rowByte, leftPart]
  · simp only [rowDrawBytes, offset, if_neg aligned, bne_iff_ne.2 aligned, Bool.true_and]
    rfl

theorem fbPixel_fbXorByte (fb : Framebuffer) (i : Fin 256) (m : Byte) (p : Pixel) :
    fbPixel (fbXorByte fb i m) p = (fbPixel fb p ^^ byteCovers i m p) := by
  by_cases same : pixelByte p = i
  · subst same
    have byte : (fbXorByte fb (pixelByte p) m)[pixelByte p] = fb[pixelByte p] ^^^ m := Vector.getElem_set_self _
    simp [fbPixel, byte, byteCovers]
  · have byte : (fbXorByte fb i m)[pixelByte p] = fb[pixelByte p] :=
      Vector.getElem_set_ne _ _ fun e => same (Fin.ext e.symm)
    simp [fbPixel, byte, byteCovers, same]

/-- A byte and a mask share a set bit exactly when the mask covers a set pixel. -/
theorem byte_and_ne_zero_iff {fb : Framebuffer} {i : Fin 256} {m : Byte} :
    (fb[i] &&& m != 0) = true ↔ ∃ p, byteCovers i m p = true ∧ fbPixel fb p = true := by
  rw [bne_iff_ne]
  constructor
  · intro nonzero
    refine Classical.byContradiction fun noPixel => nonzero (BitVec.eq_of_getLsbD_eq fun k hk => ?_)
    obtain ⟨p, rfl, rfl⟩ := exists_pixel_of_byte_bit i hk
    rw [BitVec.getLsbD_and, BitVec.ofNat_eq_ofNat, BitVec.getLsbD_zero, Bool.and_eq_false_imp]
    exact fun set => Bool.eq_false_iff.2 fun bit => noPixel ⟨p, byteCovers_iff.2 ⟨rfl, bit⟩, set⟩
  · rintro ⟨p, covered, set⟩ zero
    obtain ⟨rfl, bit⟩ := byteCovers_iff.1 covered
    have both : (fb[pixelByte p] &&& m).getLsbD (pixelBit p) = true := by
      rw [BitVec.getLsbD_and, bit, Bool.and_true]
      exact set
    rw [zero] at both
    exact absurd both (by simp)

section
variable {x y b : Byte} {r : Nat} {p : Pixel}

/-- Where a column lands that stays in the byte the row begins in. -/
theorem spritePixel_in_rowByte {j : Nat} (h : x.toNat % 8 + j < 8) :
    pixelByte (spritePixel x y r j) = rowByte x y r ∧ pixelBit (spritePixel x y r j) = 7 - (x.toNat % 8 + j) := by
  refine ⟨Fin.ext ?_, ?_⟩
  · simp only [rowByte, pixelByte, spritePixel, Fin.ofNat]
    omega
  · simp only [pixelBit, spritePixel, Fin.ofNat]
    omega

/-- Where a column lands that passes into the next byte, or wraps into the row's first. -/
theorem spritePixel_in_rowNextByte {j : Nat} (hj : j < 8) (h : 8 ≤ x.toNat % 8 + j) :
    pixelByte (spritePixel x y r j) = rowNextByte x y r ∧ pixelBit (spritePixel x y r j) = 15 - (x.toNat % 8 + j) := by
  refine ⟨Fin.ext ?_, ?_⟩
  · simp only [rowNextByte, pixelByte, spritePixel, Fin.ofNat]
    omega
  · simp only [pixelBit, spritePixel, Fin.ofNat]
    omega

/-- The left part holds the bits whose columns stay in the byte the row begins in. -/
theorem byteCovers_leftPart_iff :
    byteCovers (rowByte x y r) (leftPart x b) p = true ↔
      ∃ j < 8, x.toNat % 8 + j < 8 ∧ b.getLsbD (7 - j) = true ∧ p = spritePixel x y r j := by
  rw [byteCovers_iff, leftPart, BitVec.getLsbD_ushiftRight]
  constructor
  · rintro ⟨hbyte, bit⟩
    have inside := BitVec.lt_of_getLsbD bit
    have column : x.toNat % 8 + (7 - (x.toNat % 8 + pixelBit p)) < 8 := by omega
    obtain ⟨byte, place⟩ := spritePixel_in_rowByte (y := y) (r := r) column
    exact ⟨_, by omega, column, by rwa [Nat.sub_sub_self (by omega)],
      pixel_eq_of_byte_bit (hbyte.trans byte.symm) (by omega)⟩
  · rintro ⟨j, -, column, bit, rfl⟩
    obtain ⟨byte, place⟩ := spritePixel_in_rowByte (y := y) (r := r) column
    have source : x.toNat % 8 + pixelBit (spritePixel x y r j) = 7 - j := by omega
    exact ⟨byte, by rwa [source]⟩

/-- The right part holds the bits whose columns pass into the next byte. -/
theorem byteCovers_rightPart_iff :
    byteCovers (rowNextByte x y r) (rightPart x b) p = true ↔
      ∃ j < 8, 8 ≤ x.toNat % 8 + j ∧ b.getLsbD (7 - j) = true ∧ p = spritePixel x y r j := by
  simp only [byteCovers_iff, rightPart, BitVec.getLsbD_shiftLeft, Bool.and_eq_true, Bool.not_eq_true', decide_eq_true_iff,
    decide_eq_false_iff_not, Nat.not_lt]
  constructor
  · rintro ⟨hbyte, ⟨hp, inside⟩, bit⟩
    have column : 8 ≤ x.toNat % 8 + (15 - x.toNat % 8 - pixelBit p) := by omega
    obtain ⟨byte, place⟩ := spritePixel_in_rowNextByte (y := y) (r := r) (by omega) column
    have source : 7 - (15 - x.toNat % 8 - pixelBit p) = pixelBit p - (8 - x.toNat % 8) := by omega
    exact ⟨_, by omega, column, by rwa [source], pixel_eq_of_byte_bit (hbyte.trans byte.symm) (by omega)⟩
  · rintro ⟨j, hj, column, bit, rfl⟩
    obtain ⟨byte, place⟩ := spritePixel_in_rowNextByte (y := y) (r := r) hj column
    have source : pixelBit (spritePixel x y r j) - (8 - x.toNat % 8) = 7 - j := by omega
    exact ⟨byte, ⟨by omega, by omega⟩, by rwa [source]⟩

theorem mem_spriteRowPixels_iff_byteCovers :
    p ∈ spriteRowPixels x y r b ↔
      byteCovers (rowByte x y r) (leftPart x b) p = true ∨
        byteCovers (rowNextByte x y r) (rightPart x b) p = true := by
  rw [byteCovers_leftPart_iff, byteCovers_rightPart_iff, mem_spriteRowPixels]
  constructor
  · rintro ⟨j, hj, bit, rfl⟩
    rcases Nat.lt_or_ge (x.toNat % 8 + j) 8 with left | right
    · exact .inl ⟨j, hj, left, bit, rfl⟩
    · exact .inr ⟨j, hj, right, bit, rfl⟩
  · rintro (⟨j, hj, -, bit, rfl⟩ | ⟨j, hj, -, bit, rfl⟩)
    · exact ⟨j, hj, bit, rfl⟩
    · exact ⟨j, hj, bit, rfl⟩

/-- The two bytes of a row are different ones, so that no pixel is covered in both. -/
theorem decide_mem_spriteRowPixels :
    decide (p ∈ spriteRowPixels x y r b) =
      (byteCovers (rowByte x y r) (leftPart x b) p ^^
        byteCovers (rowNextByte x y r) (rightPart x b) p) := by
  have distinct : rowByte x y r ≠ rowNextByte x y r := fun e => by
    simp only [rowByte, rowNextByte, Fin.mk.injEq] at e
    omega
  rw [Bool.eq_iff_iff, decide_eq_true_iff, mem_spriteRowPixels_iff_byteCovers]
  cases left : byteCovers (rowByte x y r) (leftPart x b) p with
  | false => simp
  | true =>
    cases right : byteCovers (rowNextByte x y r) (rightPart x b) p with
    | false => simp
    | true => exact absurd ((byteCovers_iff.1 left).1.symm.trans (byteCovers_iff.1 right).1) distinct

variable (fb : Framebuffer)

/-- One row byte-level is the row pixel by pixel. -/
theorem rowDrawBytes_eq_spriteRowPixels :
    rowDrawBytes fb x (Fin.ofNat 32 (y.toNat + r)) b =
      ((spriteRowPixels x y r b).foldl fbToggle fb, (spriteRowPixels x y r b).any (fbPixel fb)) := by
  rw [rowDrawBytes_eq]
  refine Prod.ext (fb_ext fun p => ?_) (Bool.eq_iff_iff.2 ?_)
  · rw [fbPixel_fbXorByte, fbPixel_fbXorByte, Bool.xor_assoc, ← decide_mem_spriteRowPixels,
      fbPixel_foldl_fbToggle _ fb (spriteRowPixels_nodup x y r b)]
  · simp only [Bool.or_eq_true, byte_and_ne_zero_iff, List.any_eq_true, mem_spriteRowPixels_iff_byteCovers, or_and_right,
      exists_or]

/-- Toggling pixels leaves the collision test of other pixels as it was. -/
theorem any_fbPixel_foldl_fbToggle {ps qs : List Pixel} (h : (ps ++ qs).Nodup) :
    qs.any (fbPixel (ps.foldl fbToggle fb)) = qs.any (fbPixel fb) := by
  obtain ⟨distinct, -, disjoint⟩ := List.nodup_append.1 h
  rw [Bool.eq_iff_iff, List.any_eq_true, List.any_eq_true]
  refine exists_congr fun p => and_congr_right fun hp => ?_
  rw [fbPixel_foldl_fbToggle ps fb distinct, decide_eq_false fun hps => disjoint p hps p hp rfl, Bool.xor_false]

theorem fbDrawBytesFrom_eq_spritePixelsFrom {bs : List Byte} (h : bs.length ≤ 32) :
    fbDrawBytesFrom fb x y r bs =
      ((spritePixelsFrom x y r bs).foldl fbToggle fb, (spritePixelsFrom x y r bs).any (fbPixel fb)) := by
  induction bs generalizing fb r with
  | nil => rfl
  | cons b bs ih =>
    have distinct : (spriteRowPixels x y r b ++ spritePixelsFrom x y (r + 1) bs).Nodup := spritePixelsFrom_nodup (b :: bs) r h
    simp only [fbDrawBytesFrom, rowDrawBytes_eq_spriteRowPixels, ih _ (Nat.le_of_succ_le h),
      any_fbPixel_foldl_fbToggle fb distinct, spritePixelsFrom, List.foldl_append, List.any_append]

end

/-- Settles O55, row by row: the rows' pixels are distinct, so that testing each row after the rows above it are drawn finds the
same collision as testing them all before. -/
theorem byteLevelBlitterAgrees : Obligations.ByteLevelBlitterAgrees :=
  fun fb _ _ _ h => fbDrawBytesFrom_eq_spritePixelsFrom fb (Nat.le_trans h (by decide))

/-! ### DRW -/

section
variable {x y : RegIdx} {n : Nibble} {s : State}

theorem exec_drw_of_le (h : n.toNat = 0 ∨ s.i.toNat + n.toNat - 1 ≤ 0xFFF) :
    exec (.drw x y n) s =
      .next ((s.setFb (fbDraw s.fb (s.getV x) (s.getV y) (s.peekBytes s.i.toNat n.toNat)).1).setVf
        (boolByte (fbDraw s.fb (s.getV x) (s.getV y) (s.peekBytes s.i.toNat n.toNat)).2)) := by
  have inside : rangeFault s.i.toNat n.toNat = none := (rangeFault_eq_none _ _).2 fun k hk => by omega
  simp only [exec, execDrw, effAddr_zero, inside]

theorem exec_drw_of_gt (hn : 0 < n.toNat) (h : s.i.toNat + n.toNat - 1 > 0xFFF) :
    exec (.drw x y n) s = .next (s.raise (.drw x y n) .outOfBounds (some (max s.i.toNat 0x1000))) := by
  have outside : rangeFault s.i.toNat n.toNat = some (max s.i.toNat 0x1000) := if_pos ⟨hn, h⟩
  simp only [exec, execDrw, effAddr_zero, outside]

end

/-- Settles O52: the execute phase is one draw of at most 15 rows, and then one write of VF. -/
theorem drawFlipsCoveredPixels : Obligations.DrawFlipsCoveredPixels := by
  refine fun x y n s => ⟨decodeWord_encode (i := .drw x y n) rfl, fun inside => ?_, exec_drw_of_gt⟩
  have rows : (s.peekBytes s.i.toNat n.toNat).length ≤ 15 := by
    rw [peekBytes_length]
    omega
  refine ⟨_, exec_drw_of_le inside, fun p => fbPixel_fbDraw_of_covers s.fb rows, fun p => fbPixel_fbDraw_of_not_covers s.fb rows,
    fun hit => ?_, fun miss => ?_, (Frame.refl.setFb rfl _).setVf List.mem_cons_self _⟩
  · rw [getV_setVf_vf, (fbDraw_collides_iff s.fb).2 hit]
    rfl
  · rw [getV_setVf_vf, Bool.eq_false_iff.2 (mt (fbDraw_collides_iff s.fb).1 miss)]
    rfl

end Sys2Proof.Machine
end

section
/-! The fault table of R176 (60_exceptions.md): where `faultOf` names a fault the execute phase raises it, and where it names
none the machine runs on. Each row is decided by the condition under which its instruction is known to act or to fault. -/

namespace Sys2Proof.Machine

/-- A register value up to 15 names a key (R143). -/
theorem exists_key_of_le {b : Byte} (h : b.toNat ≤ 15) : ∃ k : Key, k.toNat = b.toNat :=
  ⟨BitVec.ofNatLT b.toNat (Nat.lt_succ_of_le h), BitVec.toNat_ofNatLT _ _⟩

/-- The condition of a row of the table fails where the row names no fault. -/
theorem not_of_ite_some_eq_none {α : Type} {p : Prop} [Decidable p] {a : α} (h : (if p then some a else none) = none) : ¬ p :=
  fun hp => Option.some_ne_none a (ite_eq_right_iff.1 h hp)

/-- An instruction with a fault in the table raises that fault (R176). -/
theorem exec_of_faultOf_eq_some {i : Instr} {s : State} {kind : FaultKind} {info : Option Nat}
    (h : faultOf i s = some (kind, info)) : exec i s = .next (s.raise i kind info) := by
  cases i with
  | ret =>
    obtain ⟨empty, ⟨⟩⟩ := Option.ite_none_right_eq_some.1 h
    exact exec_ret_of_empty empty
  | call nnn =>
    obtain ⟨full, ⟨⟩⟩ := Option.ite_none_right_eq_some.1 h
    exact exec_call_of_full full nnn
  | drw x y n =>
    obtain ⟨⟨rows, outside⟩, ⟨⟩⟩ := Option.ite_none_right_eq_some.1 h
    exact exec_drw_of_gt rows outside
  | skp x =>
    obtain ⟨noKey, ⟨⟩⟩ := Option.ite_none_right_eq_some.1 h
    exact exec_skp_of_no_key noKey
  | sknp x =>
    obtain ⟨noKey, ⟨⟩⟩ := Option.ite_none_right_eq_some.1 h
    exact exec_sknp_of_no_key noKey
  | ldB x =>
    obtain ⟨outside, ⟨⟩⟩ := Option.ite_none_right_eq_some.1 h
    exact exec_ldB_of_gt outside
  | ldIReg x =>
    obtain ⟨outside, ⟨⟩⟩ := Option.ite_none_right_eq_some.1 h
    exact exec_ldIReg_of_gt outside
  | ldRegI x =>
    obtain ⟨outside, ⟨⟩⟩ := Option.ite_none_right_eq_some.1 h
    exact exec_ldRegI_of_gt outside
  | _ => cases h

/-- An instruction with no fault in the table leaves the status as it is (R176). -/
theorem exec_keeps_status_of_faultOf_eq_none {i : Instr} {s : State} (h : faultOf i s = none) :
    ∃ t, exec i s = .next t ∧ t.status = s.status := by
  cases i with
  | ret =>
    have occupied := Nat.pos_of_ne_zero (not_of_ite_some_eq_none h)
    exact ⟨_, exec_ret_of_pop (pop_of_pos occupied), rfl⟩
  | call nnn =>
    have room : s.sp.val < 16 := Nat.lt_of_le_of_ne (Nat.le_of_lt_succ s.sp.isLt) (not_of_ite_some_eq_none h)
    exact ⟨_, exec_call_of_push (push_of_lt room s.pc) nnn, rfl⟩
  | drw x y n =>
    have notOutside := not_of_ite_some_eq_none h
    exact ⟨_, exec_drw_of_le (by omega), rfl⟩
  | skp x =>
    obtain ⟨k, hk⟩ := exists_key_of_le (Nat.not_lt.1 (not_of_ite_some_eq_none h))
    exact ⟨_, exec_skp_of_key hk, skipIf_status s.drawn _⟩
  | sknp x =>
    obtain ⟨k, hk⟩ := exists_key_of_le (Nat.not_lt.1 (not_of_ite_some_eq_none h))
    exact ⟨_, exec_sknp_of_key hk, skipIf_status s.drawn _⟩
  | ldB x => exact ⟨_, exec_ldB_of_le (Nat.not_lt.1 (not_of_ite_some_eq_none h)), pokeBytes_status s _ _⟩
  | ldIReg x => exact ⟨_, exec_ldIReg_of_le (Nat.not_lt.1 (not_of_ite_some_eq_none h)), pokeBytes_status s _ _⟩
  | ldRegI x => exact ⟨_, exec_ldRegI_of_le (Nat.not_lt.1 (not_of_ite_some_eq_none h)), setRegs_status s _ _⟩
  | se | sne | seReg | sneReg => exact ⟨_, rfl, skipIf_status s _⟩
  | subn x y => exact ⟨_, rfl, setSubnFlag_status (s.setV x _) _ _⟩
  | ldK x =>
    cases hkey : Config.nextKey s.draws with
    | none => exact ⟨_, exec_ldK_of_none x hkey, rfl⟩
    | some k => exact ⟨_, exec_ldK_of_some x hkey, rfl⟩
  | _ => exact ⟨_, rfl, rfl⟩

/-- Settles O18, row by row of the table; a raised fault is one taken from the state whose `pc` is the instruction's own. -/
theorem faultTableIsComplete : Obligations.FaultTableIsComplete := by
  intro i s hs
  cases h : faultOf i s with
  | none =>
    obtain ⟨t, ht, kept⟩ := exec_keeps_status_of_faultOf_eq_none h
    exact ⟨t, ht, kept.trans hs⟩
  | some fault => exact ⟨_, exec_of_faultOf_eq_some h, rfl⟩

end Sys2Proof.Machine
end

section
/-! New, Load and reset (70_reset_and_hazards.md R190 to R193, 60_exceptions.md R174): what a machine reads as before anything is
stored, the three answers of Load, and the reset state as New and then Load of the empty ROM. -/

namespace Sys2Proof.Machine

/-! ### New -/

/-- Settles O58: nothing is stored after New, so that memory reads as the font and zeros. -/
theorem newSeedsTheFont : Obligations.NewSeedsTheFont := by
  intro cfg
  have unstored : ∀ a, (State.new cfg).peek a = unlistedByte cfg a := peek_of_mem_nil rfl
  exact ⟨rfl, rfl, fun r => Vector.getElem_replicate r.isLt, rfl, rfl, rfl, rfl, fun k => Vector.getElem_replicate k.isLt,
    fun k => fbClear_getElem k.isLt, fun d r => (unstored _).trans (unlistedByte_font cfg d r),
    fun a outside => (unstored a).trans (unlistedByte_zero cfg a outside)⟩

/-! ### Load -/

/-- A ROM that fits is stored from `ROM_BASE` on, and the machine starts at it (R191). -/
theorem load_of_le {s : State} {rom : List Byte} (hs : s.status = .unloaded) (fits : rom.length ≤ 3584) :
    s.load rom = .loaded { s.pokeBytes 0x200 rom with pc := 0x200, status := .running } := by
  rw [State.load, hs]
  exact if_neg (Nat.not_lt.2 fits)

theorem load_of_gt {s : State} {rom : List Byte} (hs : s.status = .unloaded) (tooLong : rom.length > 3584) :
    s.load rom = .outOfBounds := by
  rw [State.load, hs]
  exact if_pos tooLong

/-- On a machine that is running or faulted Load is no move (R192, D19). -/
theorem load_of_loaded {s : State} (rom : List Byte) (hs : s.status ≠ .unloaded) : s.load rom = .notAdmitted := by
  unfold State.load
  split
  · next unloaded => exact absurd unloaded hs
  · rfl
  · rfl

/-- Starting a machine writes `pc` and the status alone. -/
theorem Frame.start {p : Parts} {s t : State} (h : Frame p s t) (a : Word) :
    Frame { p with pc := true, status := true } s { t with pc := a, status := .running } :=
  { h with pc := nofun, status := nofun }

/-- Settles O59: the three answers of Load; the loaded machine has the ROM stored and is started, which touches no memory. -/
theorem loadCopiesTheRom : Obligations.LoadCopiesTheRom := by
  refine fun s rom => ⟨fun hs fits => ?_, load_of_gt, load_of_loaded rom⟩
  exact ⟨_, load_of_le hs fits, rfl, rfl, fun k hk => peek_pokeBytes_add s 0x200 hk,
    (Frame.pokeBytes_range s 0x200 rfl).start 0x200⟩

/-! ### Reset -/

theorem load_nil_new_eq_reset : (State.new defaultConfig).load [] = .loaded State.reset :=
  load_of_le rfl (Nat.zero_le _)

/-- After reset every byte past the default font is 0 (R30, D1). -/
theorem peek_reset_of_ge {a : Nat} (h : 80 ≤ a) : State.reset.peek a = 0 :=
  (peek_of_mem_nil rfl a).trans (unlistedByte_zero defaultConfig a (.inr h))

/-- The empty ROM holds the word 0 at `ROM_BASE`. -/
theorem fetch_reset : State.reset.fetch State.reset.pc.toNat = .ok 0 := by
  refine fetch_eq_ok.2 ⟨by decide, ?_⟩
  rw [peek_reset_of_ge (by decide), peek_reset_of_ge (by decide)]
  decide

/-- The first step after reset runs a SYS (R193): it moves `pc` on, and both timers stay at 0. -/
theorem step_reset : step State.reset = .next { State.reset with pc := 0x202 } :=
  have sys : exec (decodeWord 0) State.reset.advancePc = .next State.reset.advancePc := rfl
  step_of_exec_running rfl fetch_reset sys rfl

/-- Settles O60: reset is Load of the empty ROM after New, and its fields and font are read off. -/
theorem resetIsNewThenLoad : Obligations.ResetIsNewThenLoad :=
  ⟨load_nil_new_eq_reset, rfl, rfl, rfl, rfl, rfl, rfl, fun r => Vector.getElem_replicate r.isLt,
    fun k => Vector.getElem_replicate k.isLt, fbPixel_fbClear, by decide, fun _ => peek_reset_of_ge, step_reset⟩

end Sys2Proof.Machine
end
